-- ==== Sys2Proof/Word.lean ====
section
/-!
DEFINITION. The machine's plain number types: bytes, register indices, and reduction modulo 2^W.

The spec takes every register value as an unsigned natural number that a register write reduces modulo `2^W`
(00_scope.md R10, R12), with the width `W` a parameter (R7); so a register value is a `Nat` and `truncW` is the reduction.
-/
namespace Sys2Proof

/-- One memory cell, one opcode or one operand byte (10_state.md R30, 30_encoding.md R60). -/
abbrev Byte := BitVec 8

/-- A register index in [0, 8) (10_state.md R23). -/
abbrev RegIx := Fin 8

/-- `trunc_W(v)`: `v mod 2^W` (00_scope.md R11, R12). -/
def truncW (W v : Nat) : Nat := v % 2 ^ W

/-- A possibly negative exact result `v`, reduced to `v mod 2^W` with a non-negative remainder (00_scope.md R12). -/
def truncIntW (W : Nat) (v : Int) : Nat := (v % (2 ^ W : Nat)).toNat

end Sys2Proof
end

