-- ==== Sys2Proof/Syntax.lean ====
section
/-!
DEFINITION. The closed set of 29 instructions (30_encoding.md R70, R82), one constructor per row of the opcode table and in
its order.

An operand is the whole byte that follows the opcode (R65): `ra` is operand_a, `rb` operand_b, `imm` LDI's immediate
operand_b. A register operand of 8 or more is not well formed; the machine takes the OutOfBounds fault on it (R66).
-/
namespace Sys2Proof

inductive Instr where
  | add (ra rb : Byte)
  | sub (ra rb : Byte)
  | mult (ra rb : Byte)
  | div (ra rb : Byte)
  | mod (ra rb : Byte)
  | inc (ra : Byte)
  | dec (ra : Byte)
  | cmp (ra rb : Byte)
  | and (ra rb : Byte)
  | not (ra : Byte)
  | or (ra rb : Byte)
  | xor (ra rb : Byte)
  | shl (ra rb : Byte)
  | shr (ra rb : Byte)
  | hlt
  | ldi (ra imm : Byte)
  | ld (ra rb : Byte)
  | prn (ra : Byte)
  | push (ra : Byte)
  | pop (ra : Byte)
  | call (ra : Byte)
  | ret
  | jmp (ra : Byte)
  | jeq (ra : Byte)
  | jne (ra : Byte)
  | jgt (ra : Byte)
  | jlt (ra : Byte)
  | jle (ra : Byte)
  | jge (ra : Byte)
deriving DecidableEq, Repr

end Sys2Proof
end

