-- ==== Sys2Proof/WellFormed.lean ====
section
/-!
DEFINITION. Which instructions are well formed: those whose every register operand names one of the 8 registers.
-/
namespace Sys2Proof

/-- The register operands of an instruction, in the order `Reg` decodes them: the column "register operands" of
30_encoding.md R70. LDI's operand_b is an immediate and is not among them (R63). -/
def Instr.regOperands : Instr → List Byte
  | .add ra rb => [ra, rb]
  | .sub ra rb => [ra, rb]
  | .mult ra rb => [ra, rb]
  | .div ra rb => [ra, rb]
  | .mod ra rb => [ra, rb]
  | .inc ra => [ra]
  | .dec ra => [ra]
  | .cmp ra rb => [ra, rb]
  | .and ra rb => [ra, rb]
  | .not ra => [ra]
  | .or ra rb => [ra, rb]
  | .xor ra rb => [ra, rb]
  | .shl ra rb => [ra, rb]
  | .shr ra rb => [ra, rb]
  | .hlt => []
  | .ldi ra _ => [ra]
  | .ld ra rb => [ra, rb]
  | .prn ra => [ra]
  | .push ra => [ra]
  | .pop ra => [ra]
  | .call ra => [ra]
  | .ret => []
  | .jmp ra => [ra]
  | .jeq ra => [ra]
  | .jne ra => [ra]
  | .jgt ra => [ra]
  | .jlt ra => [ra]
  | .jle ra => [ra]
  | .jge ra => [ra]

/-- An operand byte names a register (30_encoding.md R66). -/
def namesRegister (v : Byte) : Bool := v.toNat < 8

/-- Every register operand names a register. -/
def Instr.wellFormed (i : Instr) : Bool := i.regOperands.all namesRegister

end Sys2Proof
end

