-- ==== Sys2Proof/Decode.lean ====
section
/-!
DEFINITION. The fields of the opcode byte, the three formats, the decoder and the encoder (30_encoding.md R60 to R72).
-/
namespace Sys2Proof

/-! ### The opcode byte's fields (R60) -/

/-- `op[7:6]`: how many operand bytes belong to the instruction. -/
def opCount (op : Byte) : Nat := (op.extractLsb 7 6).toNat

/-- `op[5]`: the ALU-operation flag. -/
def opAlu (op : Byte) : Bool := op.getLsbD 5

/-- `op[4]`: the direct-PC-write flag. -/
def opPcw (op : Byte) : Bool := op.getLsbD 4

/-- `op[3:0]`: the identity nibble. -/
def opId (op : Byte) : Nat := (op.extractLsb 3 0).toNat

/-! ### Formats (R61) -/

/-- The formats F0, F1 and F2. -/
inductive Format where
  | f0
  | f1
  | f2
deriving DecidableEq, Repr

/-- How many operand bytes the format has. -/
def Format.operands : Format → Nat
  | .f0 => 0
  | .f1 => 1
  | .f2 => 2

/-- The length in bytes: one opcode byte and the operand bytes. -/
def Format.length (f : Format) : Nat := 1 + f.operands

/-- The format column of R70. -/
def Instr.format : Instr → Format
  | .add _ _ => .f2
  | .sub _ _ => .f2
  | .mult _ _ => .f2
  | .div _ _ => .f2
  | .mod _ _ => .f2
  | .inc _ => .f1
  | .dec _ => .f1
  | .cmp _ _ => .f2
  | .and _ _ => .f2
  | .not _ => .f1
  | .or _ _ => .f2
  | .xor _ _ => .f2
  | .shl _ _ => .f2
  | .shr _ _ => .f2
  | .hlt => .f0
  | .ldi _ _ => .f2
  | .ld _ _ => .f2
  | .prn _ => .f1
  | .push _ => .f1
  | .pop _ => .f1
  | .call _ => .f1
  | .ret => .f0
  | .jmp _ => .f1
  | .jeq _ => .f1
  | .jne _ => .f1
  | .jgt _ => .f1
  | .jlt _ => .f1
  | .jle _ => .f1
  | .jge _ => .f1

/-! ### The decoder (R70, R72, R74) -/

/-- The rejection of an undefined opcode byte (R72). -/
inductive UndefinedOpcode where
  /-- an undefined byte with `op[5] = 1` -/
  | unsupportedOperation (op : Byte)
  /-- an undefined byte with `op[5] = 0` -/
  | unrecognizedInstruction (op : Byte)
deriving DecidableEq, Repr

/-- Why a byte string begins with no instruction. -/
inductive DecodeError where
  | undefinedOpcode (u : UndefinedOpcode)
  /-- the byte list ends before the instruction does; a step never meets it, since a fetch has three bytes (R73) -/
  | incomplete
deriving DecidableEq, Repr

/-- An undefined opcode byte is rejected by its bit 5 (R72). -/
def undefinedOpcode (op : Byte) : UndefinedOpcode :=
  if opAlu op then .unsupportedOperation op else .unrecognizedInstruction op

/-- The dispatcher: the whole opcode byte is matched against the 29 bytes of R70 (R71, R72); operand bytes that are not
part of the instruction are ignored (R68). UNVERIFIED: the low nibbles of the bytes are the spec's choice (R69; log
entry 10). -/
def decodeInstr (op a b : Byte) : Except UndefinedOpcode Instr :=
  match op.toNat with
  | 0xA0 => .ok (.add a b)
  | 0xA1 => .ok (.sub a b)
  | 0xA2 => .ok (.mult a b)
  | 0xA3 => .ok (.div a b)
  | 0xA4 => .ok (.mod a b)
  | 0x65 => .ok (.inc a)
  | 0x66 => .ok (.dec a)
  | 0xA7 => .ok (.cmp a b)
  | 0xA8 => .ok (.and a b)
  | 0x69 => .ok (.not a)
  | 0xAA => .ok (.or a b)
  | 0xAB => .ok (.xor a b)
  | 0xAC => .ok (.shl a b)
  | 0xAD => .ok (.shr a b)
  | 0x01 => .ok .hlt
  | 0x82 => .ok (.ldi a b)
  | 0x83 => .ok (.ld a b)
  | 0x47 => .ok (.prn a)
  | 0x45 => .ok (.push a)
  | 0x46 => .ok (.pop a)
  | 0x50 => .ok (.call a)
  | 0x11 => .ok .ret
  | 0x54 => .ok (.jmp a)
  | 0x55 => .ok (.jeq a)
  | 0x56 => .ok (.jne a)
  | 0x57 => .ok (.jgt a)
  | 0x58 => .ok (.jlt a)
  | 0x59 => .ok (.jle a)
  | 0x5A => .ok (.jge a)
  | _ => .error (undefinedOpcode op)

/-- The decoder on a byte string: the instruction at its head and the bytes after it. -/
def decode : List Byte → Except DecodeError (Instr × List Byte)
  | [] => .error .incomplete
  | op :: rest =>
    match decodeInstr op (rest.getD 0 0) (rest.getD 1 0) with
    | .error u => .error (.undefinedOpcode u)
    | .ok i =>
      if i.format.operands ≤ rest.length then .ok (i, rest.drop i.format.operands)
      else .error .incomplete

/-- The bytes of an instruction whose bits are `w`, bit 0 the least significant bit of the first byte, with every bit from
`nbits` up zero; three bytes are the longest instruction (R61). -/
def tableWordBytes (nbits w : Nat) : List Byte :=
  let v := w % 2 ^ nbits
  [BitVec.ofNat 8 v, BitVec.ofNat 8 (v / 2 ^ 8), BitVec.ofNat 8 (v / 2 ^ 16)]

/-- The instruction the decoder reads from a word of the opcode table. -/
def decodeTableWord (nbits w : Nat) : Option Instr :=
  match decode (tableWordBytes nbits w) with
  | .ok (i, _) => some i
  | .error _ => none

/-! ### The encoder (R61, R70) -/

/-- The opcode byte column of R70. -/
def Instr.opcode : Instr → Byte
  | .add _ _ => 0b10100000
  | .sub _ _ => 0b10100001
  | .mult _ _ => 0b10100010
  | .div _ _ => 0b10100011
  | .mod _ _ => 0b10100100
  | .inc _ => 0b01100101
  | .dec _ => 0b01100110
  | .cmp _ _ => 0b10100111
  | .and _ _ => 0b10101000
  | .not _ => 0b01101001
  | .or _ _ => 0b10101010
  | .xor _ _ => 0b10101011
  | .shl _ _ => 0b10101100
  | .shr _ _ => 0b10101101
  | .hlt => 0b00000001
  | .ldi _ _ => 0b10000010
  | .ld _ _ => 0b10000011
  | .prn _ => 0b01000111
  | .push _ => 0b01000101
  | .pop _ => 0b01000110
  | .call _ => 0b01010000
  | .ret => 0b00010001
  | .jmp _ => 0b01010100
  | .jeq _ => 0b01010101
  | .jne _ => 0b01010110
  | .jgt _ => 0b01010111
  | .jlt _ => 0b01011000
  | .jle _ => 0b01011001
  | .jge _ => 0b01011010

/-- The operand bytes, operand_a first (R61). -/
def Instr.operandBytes : Instr → List Byte
  | .add ra rb => [ra, rb]
  | .sub ra rb => [ra, rb]
  | .mult ra rb => [ra, rb]
  | .div ra rb => [ra, rb]
  | .mod ra rb => [ra, rb]
  | .inc ra => [ra]
  | .dec ra => [ra]
  | .cmp ra rb => [ra, rb]
  | .and ra rb => [ra, rb]
  | .not ra => [ra]
  | .or ra rb => [ra, rb]
  | .xor ra rb => [ra, rb]
  | .shl ra rb => [ra, rb]
  | .shr ra rb => [ra, rb]
  | .hlt => []
  | .ldi ra imm => [ra, imm]
  | .ld ra rb => [ra, rb]
  | .prn ra => [ra]
  | .push ra => [ra]
  | .pop ra => [ra]
  | .call ra => [ra]
  | .ret => []
  | .jmp ra => [ra]
  | .jeq ra => [ra]
  | .jne ra => [ra]
  | .jgt ra => [ra]
  | .jlt ra => [ra]
  | .jle ra => [ra]
  | .jge ra => [ra]

/-- The bytes of an instruction at ascending addresses: the opcode, then its operands (R61). -/
def encode (i : Instr) : List Byte := i.opcode :: i.operandBytes

end Sys2Proof
end

