-- ==== Sys2Proof/Config.lean ====
section
/-!
DEFINITION. What one implementation fixes: the open parameters `W` and `WIDE_STORE` of 00_scope.md R7 and R9, and the
fixed sizes of R6.
-/
namespace Sys2Proof

/-- The parameter `WIDE_STORE` (00_scope.md R9, 20_memory.md R45): what a memory write of a value of 256 or more does. -/
inductive WideStore where
  | truncate
  | fault
deriving DecidableEq, Repr

/-- The parameters fixed for one machine. `W` is stored as `W - 8`, so that `W >= 8` (00_scope.md R7) holds by
construction. -/
structure Params where
  /-- `W - 8` -/
  extraBits : Nat
  wideStore : WideStore
deriving DecidableEq, Repr

/-- The register width `W` in bits (00_scope.md R7). -/
def Params.W (p : Params) : Nat := 8 + p.extraBits

/-- The program-counter width `PCW = max(W, 9)` (00_scope.md R8). -/
def Params.PCW (p : Params) : Nat := max p.W 9

/-- The number of memory cells (00_scope.md R6). -/
def memSize : Nat := 256

end Sys2Proof
end

