-- ==== Sys2Proof/Machine/Flags.lean ====
section
/-!
DEFINITION. The condition flags, the compare that sets them (41_alu.md R113) and the conditions that the conditional jumps
read (44_control_transfer.md R183 to R188).
-/
namespace Sys2Proof.Machine

/-- The three independent condition bits: Equal, Greater, Less (10_state.md R26). -/
structure Flags where
  E : Bool
  G : Bool
  L : Bool
deriving DecidableEq, Repr

/-- CMP's flags for the unsigned values `p = x[a]` and `q = x[b]` (R113). -/
def Flags.ofCompare (p q : Nat) : Flags :=
  { E := decide (p = q), G := decide (p > q), L := decide (p < q) }

/-- JEQ: `fl.E = 1` (R183). -/
def Flags.equal (f : Flags) : Bool := f.E

/-- JNE: `fl.E = 0` (R184). -/
def Flags.notEqual (f : Flags) : Bool := !f.E

/-- JGT: `fl.G = 1` (R185). -/
def Flags.greater (f : Flags) : Bool := f.G

/-- JLT: `fl.L = 1` (R186). -/
def Flags.less (f : Flags) : Bool := f.L

/-- JLE: `fl.L = 1 or fl.E = 1` (R187). -/
def Flags.lessOrEqual (f : Flags) : Bool := f.L || f.E

/-- JGE: `fl.G = 1 or fl.E = 1` (R188). -/
def Flags.greaterOrEqual (f : Flags) : Bool := f.G || f.E

end Sys2Proof.Machine
end

