-- ==== Sys2Proof/Machine/Launch.lean ====
section
/-!
DEFINITION. The launch parameters of 00_scope.md R9: `W`, `WIDE_STORE`, `REG_INIT` and `FL_INIT`. `MEM_IMAGE` is the byte
list that Machine/Boundary.lean loads.
-/
namespace Sys2Proof.Machine

/-- What a machine is launched with. -/
structure Launch where
  params : Params
  /-- `REG_INIT`: the reset values of registers 0 to 6 (10_state.md R22) -/
  regInit : Vector Nat 7
  /-- `FL_INIT`: the reset values of the flags (10_state.md R26) -/
  flInit : Flags
deriving DecidableEq, Repr

/-- `REG_INIT` is seven W-bit values (00_scope.md R9). -/
abbrev Launch.wf (l : Launch) : Prop := ∀ i : Fin 7, l.regInit[i] < 2 ^ l.params.W

/-- The launch that `State.reset` takes. DESIGN CHOICE, unsafe: the spec leaves all four open (log entries 1, 3, 4 and 6):
`W = 8`, `WIDE_STORE = fault`, registers 0 to 6 zero, flags clear. -/
def Launch.standard : Launch :=
  { params := { extraBits := 0, wideStore := .fault }
    regInit := #v[0, 0, 0, 0, 0, 0, 0]
    flInit := { E := false, G := false, L := false } }

/-- The reset value of SP (10_state.md R22). -/
def initialSP : Nat := 0xF4

end Sys2Proof.Machine
end

