-- ==== Sys2Proof/Machine/Memory.lean ====
section
/-!
DEFINITION. The flat memory of 256 bytes (10_state.md R30, 20_memory.md R40) as a list of (address, byte) cells in one
canonical form, and its two plain operations. The bounds checks of R42 and R43 stand in Machine/Ops.lean.
-/
namespace Sys2Proof.Machine

/-- The listed cells. -/
abbrev Memory := List Host.Cell

/-- What an unlisted address reads as. DESIGN CHOICE, unsafe: the spec gives no contents for a byte the loader does not
write (`MEM_IMAGE`, 70_reset_and_hazards.md R244; log entry 5). Every image is still a state: list its bytes. -/
def Memory.unlisted : Byte := 0

/-- The canonical form: addresses strictly rising and below 256, no cell equal to what an unlisted address reads as. -/
abbrev Memory.wf (m : Memory) : Prop :=
  m.Pairwise (fun c d => c.1 < d.1) ∧ ∀ c ∈ m, c.1 < memSize ∧ c.2 ≠ Memory.unlisted

/-- The byte at an address. -/
def Memory.read : Memory → Nat → Byte
  | [], _ => Memory.unlisted
  | (k, v) :: m, addr => if k = addr then v else Memory.read m addr

/-- The cells of one address that holds `v`: none where an unlisted address reads the same. -/
def Memory.cell (addr : Nat) (v : Byte) : Memory := if v = Memory.unlisted then [] else [(addr, v)]

/-- The memory with the byte at an address replaced; it keeps the canonical form. -/
def Memory.write : Memory → Nat → Byte → Memory
  | [], addr, v => Memory.cell addr v
  | (k, b) :: m, addr, v =>
    if addr < k then Memory.cell addr v ++ (k, b) :: m
    else if addr = k then Memory.cell addr v ++ m
    else (k, b) :: Memory.write m addr v

end Sys2Proof.Machine
end

