-- ==== Sys2Proof/Machine/State.lean ====
section
/-!
DEFINITION. The machine's state (10_state.md R31), the reasons a step can stop, and the state after reset.
-/
namespace Sys2Proof.Machine

/-- The kinds of the fault record, `None` and the kinds of 60_exceptions.md R210. -/
inductive FaultKind where
  | none
  | outOfBounds
  | divisionByZero
  | unsupportedOperation
  | unrecognizedInstruction
  | stackUnderflow
  | valueTooWide
deriving DecidableEq, Repr

/-- The code of a kind (R210). -/
def FaultKind.code : FaultKind → BitVec 3
  | .none => 0
  | .outOfBounds => 1
  | .divisionByZero => 2
  | .unsupportedOperation => 3
  | .unrecognizedInstruction => 4
  | .stackUnderflow => 5
  | .valueTooWide => 6

/-- The fault record: `fault.kind`, `fault.pc` and `fault.info` (10_state.md R28). -/
structure FaultRecord where
  kind : FaultKind
  pc : Nat
  info : Nat
deriving DecidableEq, Repr

/-- The record at reset (10_state.md R28). -/
def FaultRecord.clear : FaultRecord := { kind := .none, pc := 0, info := 0 }

/-- The machine state: the fields of 10_state.md R31, and with them the fixed parameters and the output list. -/
structure State where
  /-- the parameters `W` and `WIDE_STORE`, which no step writes (00_scope.md R7, R9; log entry 1) -/
  params : Params
  /-- `x[0]` to `x[7]`, each below `2^W`; `x[7]` is SP (R20, R21; log entry 2) -/
  x : Vector Nat 8
  /-- the program counter, below `2^PCW` (R24) -/
  pc : Nat
  /-- the condition flags (R26) -/
  fl : Flags
  /-- the running flag (R27) -/
  running : Bool
  /-- the fault record (R28) -/
  fault : FaultRecord
  /-- the 256 bytes of memory (R30) -/
  mem : Memory
  /-- the values PRN has emitted, oldest first (70_reset_and_hazards.md R246; log entry 9) -/
  output : List Nat
deriving DecidableEq, Repr

/-- Why the engine takes no step (10_state.md R29). A fault that an instruction raises is NOT one of these: it is the fault
entry of 60_exceptions.md R215, a next state. -/
inductive Fault where
  /-- `running = 0`: HLT has executed. Raised by `step` alone. Safe: no step is enabled in the spec either (R29). -/
  | halted
  /-- `fault.kind` is not None: a fault has been entered. Raised by `step` alone. Safe, as `halted`. -/
  | faulted
deriving DecidableEq, Repr

/-- Why the model gives an instruction no meaning. -/
inductive Refusal where
  /-- The instruction has no meaning in the model yet. Raised by an arm of `exec` alone; no arm is left that raises it.
  Safe. -/
  | notModelled (mnemonic : String)
deriving DecidableEq, Repr

/-- The state right after reset, for any launch (70_reset_and_hazards.md R240). Memory lists nothing: the loader fills it
afterwards. -/
def State.resetFrom (l : Launch) : State :=
  { params := l.params
    x := l.regInit.push initialSP
    pc := 0
    fl := l.flInit
    running := true
    fault := FaultRecord.clear
    mem := []
    output := [] }

/-- The machine right after reset, launched with the log's values for what the spec leaves open. -/
def State.reset : State := State.resetFrom Launch.standard

end Sys2Proof.Machine
end

