-- ==== Sys2Proof/Machine/Ops.lean ====
section
/-!
DEFINITION. The named operations over the state: register and memory access, raising and taking a fault, the sequencer's
advance, and the condition under which a step is enabled.
-/
namespace Sys2Proof.Machine

/-! ### Registers (10_state.md R20 to R23) -/

/-- The register width `W` of this machine. -/
def State.W (s : State) : Nat := s.params.W

/-- The program-counter width `PCW` of this machine. -/
def State.PCW (s : State) : Nat := s.params.PCW

/-- `x[i]`: the value of a register. -/
def State.reg (s : State) (i : RegIx) : Nat := s.x[i]

/-- `x[i] <- v`: every register write keeps the value modulo `2^W` (00_scope.md R12). -/
def State.setReg (s : State) (i : RegIx) (v : Nat) : State :=
  { s with x := s.x.set i (truncW s.W v) }

/-- The index of the stack pointer (10_state.md R21). -/
def spIx : RegIx := 7

/-- SP, another name of `x[7]`. -/
def State.SP (s : State) : Nat := s.reg spIx

/-! ### Raising a fault (00_scope.md R11, 60_exceptions.md R210) -/

/-- What `raise <Kind>(info)` carries. -/
structure Raise where
  kind : FaultKind
  info : Nat
deriving DecidableEq, Repr

/-- The result of a piece of a step: a value, or the fault that ends the step. -/
abbrev Result := Except Raise

/-- `raise <Kind>(info)`. -/
def raise {α : Type} (kind : FaultKind) (info : Nat) : Result α := .error { kind := kind, info := info }

/-- Fault entry (60_exceptions.md R215): only the fault record is written; `pc` is that of the faulting instruction and
`running` is kept. There is no handler and no return from a fault (R218). -/
def State.enterFault (s : State) (r : Raise) : State :=
  { s with fault := { kind := r.kind, pc := s.pc, info := r.info } }

/-- The end of a step that began in `s`. A raise takes the fault entry FROM `s`, so that none of the step's own writes and
no output takes effect (60_exceptions.md R214). -/
def commit (s : State) : Result State → Host.Outcome State Fault Refusal
  | .ok t => .next t
  | .error r => .next (s.enterFault r)

/-! ### The sequencer (30_encoding.md R75, R76) -/

/-- `pc <- pc + 1 + op[7:6]`, exact (00_scope.md R12). -/
def State.advance (s : State) (f : Format) : State := { s with pc := s.pc + f.length }

/-- The end of an instruction with `op[4] = 0`: the sequencer advances `pc` where the handler has not faulted (R76). -/
def sequenced (f : Format) (s : State) (r : Result State) : Host.Outcome State Fault Refusal :=
  commit s (r.map fun t => t.advance f)

/-! ### Memory (20_memory.md R42, R43) -/

/-- `MemRead(addr, 1)` (R42). -/
def State.memRead (s : State) (addr : Nat) : Result Byte :=
  if addr ≥ memSize then raise .outOfBounds addr else .ok (s.mem.read addr)

/-- `MemWrite(addr, 1, v)`: the address test comes first, then the width test of `WIDE_STORE` (R43, R45). -/
def State.memWrite (s : State) (addr v : Nat) : Result State :=
  if addr ≥ memSize then raise .outOfBounds addr
  else if v ≥ 2 ^ 8 ∧ s.params.wideStore = .fault then raise .valueTooWide addr
  else .ok { s with mem := s.mem.write addr (BitVec.ofNat 8 v) }

/-- Bytes placed at ascending addresses from `addr`; none at an address outside memory. This is how a program is put into
memory from outside (log entry 13); it is no access of the engine. -/
def State.placeBytes : State → Nat → List Byte → State
  | s, _, [] => s
  | s, addr, v :: vs =>
    State.placeBytes (if addr < memSize then { s with mem := s.mem.write addr v } else s) (addr + 1) vs

/-! ### The stack (43_stack.md R159) -/

/-- `x[7] <- (x[7] - 1) mod 2^W`. -/
def State.decSP (s : State) : State := s.setReg spIx (truncIntW s.W ((s.SP : Int) - 1))

/-- `x[7] <- (x[7] + 1) mod 2^W`. -/
def State.incSP (s : State) : State := s.setReg spIx (s.SP + 1)

/-- `MemWrite(x[7], 1, v)`. -/
def State.storeAtSP (s : State) (v : Nat) : Result State := s.memWrite s.SP v

/-- `if x[7] >= 256 then raise StackUnderflow(x[7])`, then `MemRead(x[7], 1)` (43_stack.md R161, 44_control_transfer.md R181). -/
def State.loadAtSP (s : State) : Result Byte :=
  if s.SP ≥ memSize then raise .stackUnderflow s.SP else s.memRead s.SP

/-! ### The output channel (70_reset_and_hazards.md R246) -/

/-- `emit(v)`: one event, after those already emitted. -/
def State.emit (s : State) (v : Nat) : State := { s with output := s.output ++ [v] }

/-! ### When a step is enabled (10_state.md R29) -/

/-- `running = 1` and `fault.kind = None`. -/
def State.enabled (s : State) : Bool := s.running && s.fault.kind == .none

/-- A normal stop: `running = 0` and no fault. -/
def State.halted (s : State) : Bool := !s.running && s.fault.kind == .none

/-- A fatal stop: a fault has been entered. -/
def State.faulted (s : State) : Bool := s.fault.kind != .none

/-- Why no step is enabled, where none is (R29; log entry 7). -/
def State.stopReason (s : State) : Option Fault :=
  if s.running = false then some .halted
  else if s.fault.kind = .none then none
  else some .faulted

end Sys2Proof.Machine
end

