-- ==== Sys2Proof/Machine/Boundary.lean ====
section
/-!
DEFINITION. What the host may do at the block's boundary (70_reset_and_hazards.md section 3): the load interface, the trace
port and the status outputs. The output channel is the state's list `output`.
-/
namespace Sys2Proof.Machine

/-- The host's answer to a load. -/
inductive LoadResult where
  | loaded (s : State)
  /-- the loader's OutOfBounds error: memory and the fault record are as before (R244) -/
  | outOfBounds (addr : Nat)
deriving DecidableEq, Repr

/-- `LoadWrite(addr, byte)` (R244). The host calls it only after reset and before the first step (log entry 14). -/
def State.loadWrite (s : State) (addr : Nat) (v : Byte) : LoadResult :=
  if addr < memSize then .loaded { s with mem := s.mem.write addr v } else .outOfBounds addr

/-- The loader's writes of an image at ascending addresses (R244), stopping at the first error. -/
def State.loadImage : State → Nat → List Byte → LoadResult
  | s, _, [] => .loaded s
  | s, addr, v :: vs =>
    match s.loadWrite addr v with
    | .loaded t => State.loadImage t (addr + 1) vs
    | .outOfBounds k => .outOfBounds k

/-- Reset, then the image from address 0: the machine before its first step (R242). -/
def State.boot (l : Launch) (image : List Byte) : LoadResult := (State.resetFrom l).loadImage 0 image

/-- What the trace port shows (R247). -/
structure Snapshot where
  pc : Nat
  bytes : List Byte
  regs : Vector Nat 8
deriving DecidableEq, Repr

/-- The trace port: `pc`, the next up to three memory bytes without any at 256 or above, and the registers; it never faults
and changes nothing (R247). -/
def State.snapshot (s : State) : Snapshot :=
  { pc := s.pc
    bytes := ([s.pc, s.pc + 1, s.pc + 2].filter (· < memSize)).map s.mem.read
    regs := s.x }

/-- What the status outputs show: `running`, `fault.kind` as its code, `fault.pc` and `fault.info` (R248). -/
structure Status where
  running : Bool
  faultKind : BitVec 3
  faultPc : Nat
  faultInfo : Nat
deriving DecidableEq, Repr

/-- The status outputs (R248). -/
def State.status (s : State) : Status :=
  { running := s.running, faultKind := s.fault.kind.code, faultPc := s.fault.pc, faultInfo := s.fault.info }

end Sys2Proof.Machine
end

