-- ==== Sys2Proof/Machine/Operands.lean ====
section
/-!
DEFINITION. The operand forms: a register operand (30_encoding.md R66, R67) and LDI's immediate (R64). No instruction has
another form; the only data address is SP (43_stack.md R159).
-/
namespace Sys2Proof.Machine

/-- `Reg(v)`: the register that an operand byte names; the whole byte is the index, and 8 or more raises OutOfBounds with
the byte (R65, R66). -/
def regOperand (v : Byte) : Result RegIx :=
  if h : v.toNat < 8 then .ok ⟨v.toNat, h⟩ else raise .outOfBounds v.toNat

/-- LDI's operand_b, zero-extended (R64). -/
def immOperand (v : Byte) : Nat := v.toNat

end Sys2Proof.Machine
end

