-- ==== Sys2Proof/Machine/Alu.lean ====
section
/-!
DEFINITION. The 14 ALU instructions (41_alu.md): the functions over register values, the two operand shapes, and one
meaning per instruction.
-/
namespace Sys2Proof.Machine

/-! ### The functions (R100 to R112), exact or in W bits; the register write reduces them modulo 2^W (R93) -/

def aluAdd (_W p q : Nat) : Nat := p + q

def aluSub (W p q : Nat) : Nat := truncIntW W ((p : Int) - q)

def aluMult (_W p q : Nat) : Nat := p * q

/-- Floor division of unsigned values; the divisor is not 0 here (R103). -/
def aluDiv (_W p q : Nat) : Nat := p / q

def aluMod (_W p q : Nat) : Nat := p % q

def aluAnd (_W p q : Nat) : Nat := p &&& q

def aluOr (_W p q : Nat) : Nat := p ||| q

def aluXor (_W p q : Nat) : Nat := p ^^^ q

/-- The whole value `q` is the amount. An amount of W or more gives 0 (R111), which is what the shifted value reduces to; it
is said directly so that a huge amount need not be computed. -/
def aluShl (W p q : Nat) : Nat := if q < W then p <<< q else 0

/-- The whole value `q` is the amount; zeros shift in at the top. An amount of W or more gives 0 (R112). -/
def aluShr (W p q : Nat) : Nat := if q < W then p >>> q else 0

def aluInc (_W p : Nat) : Nat := p + 1

def aluDec (W p : Nat) : Nat := truncIntW W ((p : Int) - 1)

/-- `(2^W - 1) - x[a]` (R110). -/
def aluNot (W p : Nat) : Nat := 2 ^ W - 1 - p

/-! ### The operand shapes (R90 to R92) -/

/-- `x[a] <- f(x[a], x[b])`, both sources read first (R92). -/
def aluBinary (f : Nat → Nat → Nat → Nat) (ra rb : Byte) (s : State) : Result State := do
  let a ← regOperand ra
  let b ← regOperand rb
  return s.setReg a (f s.W (s.reg a) (s.reg b))

/-- As `aluBinary`, with DivisionByZero where the divisor register holds 0; its index is the information (R103, R104). -/
def aluDivide (f : Nat → Nat → Nat → Nat) (ra rb : Byte) (s : State) : Result State := do
  let a ← regOperand ra
  let b ← regOperand rb
  if s.reg b = 0 then raise .divisionByZero b
  else return s.setReg a (f s.W (s.reg a) (s.reg b))

/-- `x[a] <- f(x[a])`; operand_b is no part of the instruction (R90). -/
def aluUnary (f : Nat → Nat → Nat) (ra : Byte) (s : State) : Result State := do
  let a ← regOperand ra
  return s.setReg a (f s.W (s.reg a))

/-! ### The meanings -/

/-- R100. -/
def execAdd (ra rb : Byte) (s : State) : Host.Outcome State Fault Refusal :=
  sequenced .f2 s (aluBinary aluAdd ra rb s)

/-- R101. -/
def execSub (ra rb : Byte) (s : State) : Host.Outcome State Fault Refusal :=
  sequenced .f2 s (aluBinary aluSub ra rb s)

/-- R102. -/
def execMult (ra rb : Byte) (s : State) : Host.Outcome State Fault Refusal :=
  sequenced .f2 s (aluBinary aluMult ra rb s)

/-- R103. -/
def execDiv (ra rb : Byte) (s : State) : Host.Outcome State Fault Refusal :=
  sequenced .f2 s (aluDivide aluDiv ra rb s)

/-- R104. -/
def execMod (ra rb : Byte) (s : State) : Host.Outcome State Fault Refusal :=
  sequenced .f2 s (aluDivide aluMod ra rb s)

/-- R105; the increment of the source's table, not the reference's subtraction (90_conflicts.md C8). -/
def execInc (ra : Byte) (s : State) : Host.Outcome State Fault Refusal :=
  sequenced .f1 s (aluUnary aluInc ra s)

/-- R106; as INC (C8). -/
def execDec (ra : Byte) (s : State) : Host.Outcome State Fault Refusal :=
  sequenced .f1 s (aluUnary aluDec ra s)

/-- R113: CMP writes the three flags and nothing else. -/
def execCmp (ra rb : Byte) (s : State) : Host.Outcome State Fault Refusal :=
  sequenced .f2 s do
    let a ← regOperand ra
    let b ← regOperand rb
    return { s with fl := Flags.ofCompare (s.reg a) (s.reg b) }

/-- R107. -/
def execAnd (ra rb : Byte) (s : State) : Host.Outcome State Fault Refusal :=
  sequenced .f2 s (aluBinary aluAnd ra rb s)

/-- R110; the bitwise complement of the source's table (C9). -/
def execNot (ra : Byte) (s : State) : Host.Outcome State Fault Refusal :=
  sequenced .f1 s (aluUnary aluNot ra s)

/-- R108. -/
def execOr (ra rb : Byte) (s : State) : Host.Outcome State Fault Refusal :=
  sequenced .f2 s (aluBinary aluOr ra rb s)

/-- R109. -/
def execXor (ra rb : Byte) (s : State) : Host.Outcome State Fault Refusal :=
  sequenced .f2 s (aluBinary aluXor ra rb s)

/-- R111. -/
def execShl (ra rb : Byte) (s : State) : Host.Outcome State Fault Refusal :=
  sequenced .f2 s (aluBinary aluShl ra rb s)

/-- R112; a handler of its own (C10). -/
def execShr (ra rb : Byte) (s : State) : Host.Outcome State Fault Refusal :=
  sequenced .f2 s (aluBinary aluShr ra rb s)

end Sys2Proof.Machine
end

