-- ==== Sys2Proof/Machine/LoadOutputHalt.lean ====
section
/-!
DEFINITION. HLT, LDI, LD and PRN (42_load_output_halt.md).
-/
namespace Sys2Proof.Machine

/-- R140: `running <- 0`, then the sequencer's advance by 1 (90_conflicts.md C6). -/
def execHlt (s : State) : Host.Outcome State Fault Refusal :=
  sequenced .f0 s (.ok { s with running := false })

/-- R141. -/
def execLdi (ra imm : Byte) (s : State) : Host.Outcome State Fault Refusal :=
  sequenced .f2 s do
    let a ← regOperand ra
    return s.setReg a (immOperand imm)

/-- R142: a register copy, no memory read (90_conflicts.md C1). -/
def execLd (ra rb : Byte) (s : State) : Host.Outcome State Fault Refusal :=
  sequenced .f2 s do
    let a ← regOperand ra
    let b ← regOperand rb
    return s.setReg a (s.reg b)

/-- R143. -/
def execPrn (ra : Byte) (s : State) : Host.Outcome State Fault Refusal :=
  sequenced .f1 s do
    let a ← regOperand ra
    return s.emit (s.reg a)

end Sys2Proof.Machine
end

