-- ==== Sys2Proof/Machine/Stack.lean ====
section
/-!
DEFINITION. PUSH and POP (43_stack.md). Their statements run in the order written, which decides the r7 forms.
-/
namespace Sys2Proof.Machine

/-- R160: SP is decremented first, then the register is read and written at the new SP. -/
def execPush (ra : Byte) (s : State) : Host.Outcome State Fault Refusal :=
  sequenced .f1 s do
    let a ← regOperand ra
    let s₁ := s.decSP
    s₁.storeAtSP (s₁.reg a)

/-- R161: the register takes the byte at SP, then SP (the popped byte, for r7) is incremented. -/
def execPop (ra : Byte) (s : State) : Host.Outcome State Fault Refusal :=
  sequenced .f1 s do
    let a ← regOperand ra
    let v ← s.loadAtSP
    return (s.setReg a v.toNat).incSP

end Sys2Proof.Machine
end

