-- ==== Sys2Proof/Machine/Transfer.lean ====
section
/-!
DEFINITION. The nine direct-PC-write instructions (44_control_transfer.md). Each sets `pc` itself, so the sequencer does not
advance it (30_encoding.md R75).
-/
namespace Sys2Proof.Machine

/-- R180: the return address `pc + 2` is pushed, then the target register is read. -/
def execCall (ra : Byte) (s : State) : Host.Outcome State Fault Refusal :=
  commit s do
    let a ← regOperand ra
    let s₂ ← s.decSP.storeAtSP (s.pc + 2)
    return { s₂ with pc := s₂.reg a }

/-- R181. -/
def execRet (s : State) : Host.Outcome State Fault Refusal :=
  commit s do
    let v ← s.loadAtSP
    return { s with pc := v.toNat }.incSP

/-- A jump through a register: the operand is decoded on both paths, and the path not taken is `pc + 2` (R189). -/
def jumpIf (taken : Bool) (ra : Byte) (s : State) : Result State := do
  let a ← regOperand ra
  return { s with pc := if taken then s.reg a else s.pc + 2 }

/-- R182. -/
def execJmp (ra : Byte) (s : State) : Host.Outcome State Fault Refusal :=
  commit s (jumpIf true ra s)

/-- R183. -/
def execJeq (ra : Byte) (s : State) : Host.Outcome State Fault Refusal :=
  commit s (jumpIf s.fl.equal ra s)

/-- R184. -/
def execJne (ra : Byte) (s : State) : Host.Outcome State Fault Refusal :=
  commit s (jumpIf s.fl.notEqual ra s)

/-- R185. -/
def execJgt (ra : Byte) (s : State) : Host.Outcome State Fault Refusal :=
  commit s (jumpIf s.fl.greater ra s)

/-- R186. -/
def execJlt (ra : Byte) (s : State) : Host.Outcome State Fault Refusal :=
  commit s (jumpIf s.fl.less ra s)

/-- R187. -/
def execJle (ra : Byte) (s : State) : Host.Outcome State Fault Refusal :=
  commit s (jumpIf s.fl.lessOrEqual ra s)

/-- R188. -/
def execJge (ra : Byte) (s : State) : Host.Outcome State Fault Refusal :=
  commit s (jumpIf s.fl.greaterOrEqual ra s)

end Sys2Proof.Machine
end

