-- ==== Sys2Proof/Machine/Dispatch.lean ====
section
/-!
DEFINITION. The dispatcher: one arm per instruction (30_encoding.md R74, R82).
-/
namespace Sys2Proof.Machine

/-- What one instruction does, whole: its handler, and the sequencer's advance where `op[4] = 0` (log entry 19). -/
def exec (i : Instr) (s : State) : Host.Outcome State Fault Refusal :=
  match i with
  | .add ra rb => Sys2Proof.Machine.execAdd ra rb s
  | .sub ra rb => Sys2Proof.Machine.execSub ra rb s
  | .mult ra rb => Sys2Proof.Machine.execMult ra rb s
  | .div ra rb => Sys2Proof.Machine.execDiv ra rb s
  | .mod ra rb => Sys2Proof.Machine.execMod ra rb s
  | .inc ra => Sys2Proof.Machine.execInc ra s
  | .dec ra => Sys2Proof.Machine.execDec ra s
  | .cmp ra rb => Sys2Proof.Machine.execCmp ra rb s
  | .and ra rb => Sys2Proof.Machine.execAnd ra rb s
  | .not ra => Sys2Proof.Machine.execNot ra s
  | .or ra rb => Sys2Proof.Machine.execOr ra rb s
  | .xor ra rb => Sys2Proof.Machine.execXor ra rb s
  | .shl ra rb => Sys2Proof.Machine.execShl ra rb s
  | .shr ra rb => Sys2Proof.Machine.execShr ra rb s
  | .hlt => Sys2Proof.Machine.execHlt s
  | .ldi ra imm => Sys2Proof.Machine.execLdi ra imm s
  | .ld ra rb => Sys2Proof.Machine.execLd ra rb s
  | .prn ra => Sys2Proof.Machine.execPrn ra s
  | .push ra => Sys2Proof.Machine.execPush ra s
  | .pop ra => Sys2Proof.Machine.execPop ra s
  | .call ra => Sys2Proof.Machine.execCall ra s
  | .ret => Sys2Proof.Machine.execRet s
  | .jmp ra => Sys2Proof.Machine.execJmp ra s
  | .jeq ra => Sys2Proof.Machine.execJeq ra s
  | .jne ra => Sys2Proof.Machine.execJne ra s
  | .jgt ra => Sys2Proof.Machine.execJgt ra s
  | .jlt ra => Sys2Proof.Machine.execJlt ra s
  | .jle ra => Sys2Proof.Machine.execJle ra s
  | .jge ra => Sys2Proof.Machine.execJge ra s

end Sys2Proof.Machine
end

