-- ==== Sys2Proof/Machine/Fetch.lean ====
section
/-!
DEFINITION. Fetch and decode (30_encoding.md R73, R74).
-/
namespace Sys2Proof.Machine

/-- The fault that an undefined opcode byte raises at decode, with the byte (30_encoding.md R72, 60_exceptions.md R213). -/
def raiseOfUndefined : UndefinedOpcode → Raise
  | .unsupportedOperation op => { kind := .unsupportedOperation, info := op.toNat }
  | .unrecognizedInstruction op => { kind := .unrecognizedInstruction, info := op.toNat }

/-- The three reads at `pc`, `pc + 1` and `pc + 2`, in that order and whatever the format (R73), then the decode. -/
def State.fetchDecode (s : State) : Result Instr := do
  let op ← s.memRead s.pc
  let a ← s.memRead (s.pc + 1)
  let b ← s.memRead (s.pc + 2)
  (decodeInstr op a b).mapError raiseOfUndefined

end Sys2Proof.Machine
end

