-- ==== Sys2Proof/Machine/Step.lean ====
section
/-!
DEFINITION. One step (30_encoding.md R77), and the placing of an instruction where the next step fetches.
-/
namespace Sys2Proof.Machine

/-- One step. Where no step is enabled the machine stops, under the reason's name (10_state.md R29); a fault of the fetch or
the decode takes the fault entry (60_exceptions.md R215); otherwise the fetched instruction runs. -/
def step (s : State) : Host.Outcome State Fault Refusal :=
  match s.stopReason with
  | some reason => .fault reason
  | none =>
    match s.fetchDecode with
    | .error r => .next (s.enterFault r)
    | .ok i => exec i s

/-- `s` with an opcode-table word stored where the next step fetches: at `pc` and the two bytes after it, all three of which
a fetch reads (30_encoding.md R73). It stands for the loader (log entry 13). -/
def State.withFetchWord (s : State) (nbits w : Nat) : State := s.placeBytes s.pc (tableWordBytes nbits w)

end Sys2Proof.Machine
end

