-- ==== Sys2Proof/Safety.lean ====
section
/-!
DEFINITION. What counts as a well-formed state, as a coherent stop, and as a run that ends well.
-/
namespace Sys2Proof.Machine

/-- Every register holds a W-bit value (10_state.md R20). -/
abbrev State.RegsInRange (s : State) : Prop := ∀ i : RegIx, s.reg i < 2 ^ s.W

/-- Every field holds a value of its width (10_state.md R31), memory is in its canonical form, and every emitted value is a
W-bit value (70_reset_and_hazards.md R246). -/
abbrev State.Wf (s : State) : Prop :=
  s.RegsInRange ∧ s.pc < 2 ^ s.PCW ∧ s.fault.pc < 2 ^ s.PCW ∧ s.fault.info < 2 ^ (s.PCW + 1) ∧
    s.mem.wf ∧ ∀ v ∈ s.output, v < 2 ^ s.W

/-- The stop state is coherent: the fault record is clear unless a fault was entered (10_state.md R28); a fault leaves
`running` at 1 and names the `pc` it left in place (60_exceptions.md R214, R215); ValueTooWide exists only where
`WIDE_STORE = fault` (R210). -/
abbrev State.StopCoherent (s : State) : Prop :=
  (s.fault.kind = .none → s.fault = FaultRecord.clear) ∧
    (s.fault.kind ≠ .none → s.running = true ∧ s.fault.pc = s.pc) ∧
    (s.fault.kind = .valueTooWide → s.params.wideStore = .fault)

/-- `t` is reached from `s` by steps. -/
inductive Reaches : State → State → Prop where
  | refl (s : State) : Reaches s s
  | tail {s t u : State} (h : Reaches s t) (hu : step t = .next u) : Reaches s u

/-- No state of the run from `s` has entered a fault. -/
def SafeFrom (s : State) : Prop := ∀ t, Reaches s t → t.faulted = false

/-- The run from `s` ends in `t` by HLT, the normal completion (70_reset_and_hazards.md R249). -/
def CompletesIn (s t : State) : Prop := Reaches s t ∧ t.halted = true

/-- The run from `s` ends in `t` by a fault, the fatal stop (R249). -/
def StopsFatallyIn (s t : State) : Prop := Reaches s t ∧ t.faulted = true

end Sys2Proof.Machine
end

