-- ==== Sys2Proof/Certificates/Slice0/Obligations.lean ====
section
/-!
DEFINITION. The statements about the machine, one `def Obligations.<Name> : Prop` each, and the words they are written in.

Where the spec marks a rule with `[decision: …]` or `[derived: …]` the rule is the spec's own choice or inference; the
statement about it has basis "derived" and its docstring names the mark.
-/

open Sys2Proof Sys2Proof.Machine

namespace Sys2Proof.Claims

/-! ### What an instruction leaves unchanged -/

/-- Every register but those named is unchanged. -/
def RegsKept (except : List RegIx) (s t : State) : Prop := ∀ i, i ∉ except → t.reg i = s.reg i

/-- Every byte of memory reads as before. -/
def MemKept (s t : State) : Prop := ∀ a, t.mem.read a = s.mem.read a

/-- Every byte of memory outside one address reads as before. -/
def MemKeptOutside (addr : Nat) (s t : State) : Prop := ∀ a, a ≠ addr → t.mem.read a = s.mem.read a

/-- The parameters, the running flag and the fault record are unchanged. -/
def EngineKept (s t : State) : Prop := t.params = s.params ∧ t.running = s.running ∧ t.fault = s.fault

/-- Nothing but the named registers and `pc` may have changed. -/
def OnlyRegs (except : List RegIx) (s t : State) : Prop :=
  RegsKept except s t ∧ t.fl = s.fl ∧ MemKept s t ∧ EngineKept s t ∧ t.output = s.output

/-! ### Faults -/

/-- The instruction takes the fault entry: the state before it, with only the fault record written (60_exceptions.md R214,
R215). -/
def TakesFault (i : Instr) (s : State) (kind : FaultKind) (info : Nat) : Prop :=
  exec i s = .next { s with fault := { kind := kind, pc := s.pc, info := info } }

/-- A one-register instruction whose operand names no register takes OutOfBounds with the byte. -/
def BadOperandFaults (mk : Byte → Instr) : Prop :=
  ∀ (s : State) (ra : Byte), 8 ≤ ra.toNat → TakesFault (mk ra) s .outOfBounds ra.toNat

/-- A two-register instruction checks operand_a first, then operand_b. -/
def BadOperandsFault (mk : Byte → Byte → Instr) : Prop :=
  ∀ (s : State) (ra rb : Byte),
    (8 ≤ ra.toNat → TakesFault (mk ra rb) s .outOfBounds ra.toNat) ∧
      (ra.toNat < 8 → 8 ≤ rb.toNat → TakesFault (mk ra rb) s .outOfBounds rb.toNat)

/-! ### The rules of one shape -/

/-- `x[a] <- res W x[a] x[b]`: encoding `op ra rb`, completion for all register contents, the result, `pc + 3`, nothing else
changed, and the operand faults. -/
def BinaryRule (mk : Byte → Byte → Instr) (op : Byte) (res : Nat → Nat → Nat → Nat) : Prop :=
  (∀ ra rb, encode (mk ra rb) = [op, ra, rb]) ∧ BadOperandsFault mk ∧
    ∀ (s : State) (ra rb : Byte) (ha : ra.toNat < 8) (hb : rb.toNat < 8), s.RegsInRange →
      ∃ t, exec (mk ra rb) s = .next t ∧
        t.reg ⟨ra.toNat, ha⟩ = res s.W (s.reg ⟨ra.toNat, ha⟩) (s.reg ⟨rb.toNat, hb⟩) ∧
        t.pc = s.pc + 3 ∧ OnlyRegs [⟨ra.toNat, ha⟩] s t

/-- As `BinaryRule`, for a divisor other than 0; a divisor of 0 takes DivisionByZero with the divisor's register index. -/
def DivideRule (mk : Byte → Byte → Instr) (op : Byte) (res : Nat → Nat → Nat) : Prop :=
  (∀ ra rb, encode (mk ra rb) = [op, ra, rb]) ∧ BadOperandsFault mk ∧
    ∀ (s : State) (ra rb : Byte) (ha : ra.toNat < 8) (hb : rb.toNat < 8), s.RegsInRange →
      (s.reg ⟨rb.toNat, hb⟩ = 0 → TakesFault (mk ra rb) s .divisionByZero rb.toNat) ∧
      (s.reg ⟨rb.toNat, hb⟩ ≠ 0 → ∃ t, exec (mk ra rb) s = .next t ∧
        t.reg ⟨ra.toNat, ha⟩ = res (s.reg ⟨ra.toNat, ha⟩) (s.reg ⟨rb.toNat, hb⟩) ∧
        t.pc = s.pc + 3 ∧ OnlyRegs [⟨ra.toNat, ha⟩] s t)

/-- `x[a] <- res W x[a]`: encoding `op ra`, and as `BinaryRule` with `pc + 2`. -/
def UnaryRule (mk : Byte → Instr) (op : Byte) (res : Nat → Nat → Nat) : Prop :=
  (∀ ra, encode (mk ra) = [op, ra]) ∧ BadOperandFaults mk ∧
    ∀ (s : State) (ra : Byte) (ha : ra.toNat < 8), s.RegsInRange →
      ∃ t, exec (mk ra) s = .next t ∧ t.reg ⟨ra.toNat, ha⟩ = res s.W (s.reg ⟨ra.toNat, ha⟩) ∧
        t.pc = s.pc + 2 ∧ OnlyRegs [⟨ra.toNat, ha⟩] s t

/-- `if cond then pc <- x[a] else pc <- pc + 2`: encoding `op ra`, completion in every state, and the operand fault on both
paths. -/
def CondJumpRule (mk : Byte → Instr) (op : Byte) (cond : Flags → Prop) : Prop :=
  (∀ ra, encode (mk ra) = [op, ra]) ∧ BadOperandFaults mk ∧
    ∀ (s : State) (ra : Byte) (ha : ra.toNat < 8), ∃ t, exec (mk ra) s = .next t ∧
      (cond s.fl → t.pc = s.reg ⟨ra.toNat, ha⟩) ∧ (¬cond s.fl → t.pc = s.pc + 2) ∧ OnlyRegs [] s t

/-! ### The stack -/

/-- `(x[7] - 1) mod 2^W`: SP after the decrement, the address a PUSH or CALL stores to. -/
def pushAddress (s : State) : Nat := (s.SP + 2 ^ s.W - 1) % 2 ^ s.W

/-- The value a PUSH stores: the register as it is after the decrement of SP. -/
def pushedValue (s : State) (a : RegIx) : Nat := if a = spIx then pushAddress s else s.reg a

/-- `n` PUSH instructions of one register, one after the other. -/
def pushTimes (ra : Byte) : Nat → State → Host.Outcome State Fault Refusal
  | 0, s => .next s
  | n + 1, s =>
    match exec (.push ra) s with
    | .next t => pushTimes ra n t
    | o => o

/-! ### The step -/

/-- A step is enabled (10_state.md R29). -/
def Enabled (s : State) : Prop := s.running = true ∧ s.fault.kind = .none

/-- What the dispatcher makes of the three bytes at `pc`. -/
def dispatched (s : State) : Except UndefinedOpcode Instr :=
  decodeInstr (s.mem.read s.pc) (s.mem.read (s.pc + 1)) (s.mem.read (s.pc + 2))

/-- Memory as a PUSH or CALL in `s` that stores `v` leaves it, read at one address: the low byte of `v` at the decremented
SP, and `s`'s bytes elsewhere. -/
def byteAfterStore (s : State) (v addr : Nat) : Byte :=
  if addr = pushAddress s then BitVec.ofNat 8 v else s.mem.read addr

/-- An enabled step of `t`, with `pc` up to 253, goes by the three bytes at `pc` as the store of `v` in `s` left them: it
runs the instruction they decode to, or takes the fault of the undefined opcode among them. -/
def FetchSeesStored (s t : State) (v : Nat) : Prop :=
  Enabled t → t.pc ≤ 253 →
    match decodeInstr (byteAfterStore s v t.pc) (byteAfterStore s v (t.pc + 1)) (byteAfterStore s v (t.pc + 2)) with
    | .ok i => step t = exec i t
    | .error u => step t = .next (t.enterFault (raiseOfUndefined u))

/-- The nine instructions that set `pc` themselves (30_encoding.md R75). -/
def setsPc : Instr → Bool
  | .call _ | .ret | .jmp _ | .jeq _ | .jne _ | .jgt _ | .jlt _ | .jle _ | .jge _ => true
  | _ => false

/-- The 14 instructions of the ALU table (30_encoding.md R71). -/
def isAlu : Instr → Bool
  | .add _ _ | .sub _ _ | .mult _ _ | .div _ _ | .mod _ _ | .inc _ | .dec _ | .cmp _ _ | .and _ _ | .not _ | .or _ _
  | .xor _ _ | .shl _ _ | .shr _ _ => true
  | _ => false

/-- The instructions whose rule writes the register that operand_a names: the ALU's but CMP (41_alu.md R91), LDI, LD and
POP. -/
def writesOperandA : Instr → Bool
  | .cmp _ _ => false
  | .ldi _ _ | .ld _ _ | .pop _ => true
  | i => isAlu i

end Sys2Proof.Claims

open Sys2Proof.Claims

/-! ### Encoding and decode -/

/-- Words written out from the table of 30_encoding.md R70 decode to the instructions they stand for, whatever follows. The
byte values are the spec's decision D6 (log entry 10). -/
def Obligations.TableWordsDecodeToTheirInstructions : Prop :=
  ∀ rest : List Byte,
    decode (0b10100000 :: 1 :: 2 :: rest) = .ok (.add 1 2, rest) ∧
    decode (0b01100101 :: 4 :: rest) = .ok (.inc 4, rest) ∧
    decode (0b10101000 :: 0 :: 7 :: rest) = .ok (.and 0 7, rest) ∧
    decode (0b10101101 :: 5 :: 6 :: rest) = .ok (.shr 5 6, rest) ∧
    decode (0b10100111 :: 3 :: 3 :: rest) = .ok (.cmp 3 3, rest) ∧
    decode (0b00000001 :: rest) = .ok (.hlt, rest) ∧
    decode (0b10000010 :: 0 :: 255 :: rest) = .ok (.ldi 0 255, rest) ∧
    decode (0b01000101 :: 7 :: rest) = .ok (.push 7, rest) ∧
    decode (0b00010001 :: rest) = .ok (.ret, rest) ∧
    decode (0b01011010 :: 2 :: rest) = .ok (.jge 2, rest)

/-- Decode and encode agree both ways, for all 29 instructions, every operand byte and whatever bytes follow: the decoder
reads an instruction from a byte string exactly where the string begins with that instruction's encoding. -/
def Obligations.DecodeAndEncodeAgree : Prop :=
  ∀ (bytes : List Byte) (i : Instr) (rest : List Byte), decode bytes = .ok (i, rest) ↔ bytes = encode i ++ rest

/-- 30_encoding.md R78 (derived by the spec from R69 and R70), and R61: the opcode byte's fields describe the
instruction. -/
def Obligations.OpcodeBitsDescribeTheInstruction : Prop :=
  ∀ i : Instr,
    (encode i).length = 1 + opCount i.opcode ∧ i.operandBytes.length = opCount i.opcode ∧ opCount i.opcode ≤ 2 ∧
      (opPcw i.opcode = true ↔ setsPc i = true) ∧ (opAlu i.opcode = true ↔ isAlu i = true)

/-- 30_encoding.md R72 (decision D7): an opcode byte of no instruction is rejected under the name its bit 5 gives, whatever
its operand bytes. -/
def Obligations.UndefinedBytesAreRejectedByBitFive : Prop :=
  ∀ op a b : Byte, (∀ i : Instr, i.opcode ≠ op) →
    (op.getLsbD 5 = true → decodeInstr op a b = .error (.unsupportedOperation op)) ∧
      (op.getLsbD 5 = false → decodeInstr op a b = .error (.unrecognizedInstruction op))

/-- 60_exceptions.md R213 (derived by the spec): of the 256 opcode bytes 29 are instructions, 114 give UnsupportedOperation
and 113 give UnrecognizedInstruction (counted with operand bytes 0; the answer's class does not depend on them). -/
def Obligations.OpcodeSpaceCounts : Prop :=
  ((List.range 256).countP fun n => (decodeInstr (BitVec.ofNat 8 n) 0 0).isOk) = 29 ∧
    ((List.range 256).countP fun n =>
      decide (decodeInstr (BitVec.ofNat 8 n) 0 0 = .error (.unsupportedOperation (BitVec.ofNat 8 n)))) = 114 ∧
    ((List.range 256).countP fun n =>
      decide (decodeInstr (BitVec.ofNat 8 n) 0 0 = .error (.unrecognizedInstruction (BitVec.ofNat 8 n)))) = 113

/-- 30_encoding.md R68: operand bytes that are not part of the instruction do not matter to it. -/
def Obligations.ExtraOperandBytesAreIgnored : Prop :=
  ∀ (op a b a' b' : Byte) (i : Instr), decodeInstr op a b = .ok i →
    (opCount op = 0 → decodeInstr op a' b' = .ok i) ∧ (opCount op = 1 → decodeInstr op a b' = .ok i)

/-! ### The step -/

/-- 30_encoding.md R77 (derived by the spec): an enabled step at `pc` up to 253 runs the instruction that the three bytes at
`pc` decode to. `exec` is the whole instruction, the sequencer's advance among it. -/
def Obligations.StepRunsTheFetchedInstruction : Prop :=
  ∀ (s : State) (i : Instr), Enabled s → s.pc ≤ 253 → dispatched s = .ok i → step s = exec i s

/-- Where memory at `pc` holds an instruction's encoding, an enabled step at `pc` up to 253 runs that instruction, whatever
bytes follow it. -/
def Obligations.StepRunsTheEncodedInstruction : Prop :=
  ∀ (s : State) (i : Instr), Enabled s → s.pc ≤ 253 →
    (∀ (k : Nat) (h : k < (encode i).length), s.mem.read (s.pc + k) = (encode i)[k]) → step s = exec i s

/-- 30_encoding.md R73 (decision D9): a fetch at 254 or above takes OutOfBounds with the first address of 256 or more,
whatever is in memory. -/
def Obligations.FetchAt254OrAboveFaults : Prop :=
  ∀ s : State, Enabled s → 254 ≤ s.pc →
    step s = .next { s with fault := { kind := .outOfBounds, pc := s.pc, info := max s.pc 256 } }

/-- 30_encoding.md R72 and 60_exceptions.md R215 (decisions D7 and D10): an enabled step whose opcode byte is no
instruction's takes the fault that its bit 5 gives, with the byte, and changes nothing else. -/
def Obligations.UndefinedOpcodeStepTakesItsFault : Prop :=
  ∀ s : State, Enabled s → s.pc ≤ 253 → (∀ i : Instr, i.opcode ≠ s.mem.read s.pc) →
    step s = .next { s with fault := {
      kind := if (s.mem.read s.pc).getLsbD 5 then .unsupportedOperation else .unrecognizedInstruction
      pc := s.pc
      info := (s.mem.read s.pc).toNat } }

/-- 10_state.md R29 (derived by the spec): after HLT and after a fault no step is taken. That a step that is not enabled
answers the host's `fault` outcome under the reason's name is the model's choice (log entry 7). -/
def Obligations.StoppedEngineTakesNoStep : Prop :=
  ∀ s : State, (s.running = false → step s = .fault .halted) ∧
    (s.running = true → s.fault.kind ≠ .none → step s = .fault .faulted)

/-- An enabled step always answers a next state, and no step is ever refused: no instruction, byte or register content
stops the model (30_encoding.md R77, 10_state.md R29). -/
def Obligations.EnabledStepAlwaysHasANextState : Prop :=
  ∀ s : State, (Enabled s ↔ ∃ t, step s = .next t) ∧ ∀ r, step s ≠ .refused r

/-! ### Invariants -/

/-- Every step keeps every field within its width, the memory list in its canonical form, and the parameters as they are
(10_state.md R31, 00_scope.md R7, R8; log entries 1 and 2). -/
def Obligations.StepKeepsTheStateWellFormed : Prop :=
  ∀ s t : State, s.Wf → step s = .next t → t.Wf ∧ t.params = s.params

/-- Every step keeps the stop state coherent: a clear record unless a fault was entered, `running` kept by a fault, the
faulting `pc` in place, ValueTooWide only under `WIDE_STORE = fault` (10_state.md R28, 60_exceptions.md R210, R214, R215;
decisions D10 and D11). -/
def Obligations.StepKeepsTheStopCoherent : Prop :=
  ∀ s t : State, s.StopCoherent → step s = .next t → t.StopCoherent

/-- The reset state, and the reset state of every launch with W-bit register values, meet both invariants and are enabled.
The launch of `State.reset` is the model's choice (log entries 1, 3, 4 and 6). -/
def Obligations.ResetStatesMeetTheInvariants : Prop :=
  (State.reset.Wf ∧ State.reset.StopCoherent ∧ Enabled State.reset) ∧
    ∀ l : Launch, l.wf → (State.resetFrom l).Wf ∧ (State.resetFrom l).StopCoherent ∧ Enabled (State.resetFrom l)

/-! ### Reset and the host's interfaces -/

/-- 70_reset_and_hazards.md R240 (decisions D2, D3, D4 and D31): what reset leaves, for every launch. -/
def Obligations.ResetLeavesTheRuleValues : Prop :=
  ∀ l : Launch,
    (State.resetFrom l).SP = 0xF4 ∧
    (∀ (k : Nat) (h : k < 7), (State.resetFrom l).reg ⟨k, by omega⟩ = l.regInit[k]) ∧
    (State.resetFrom l).pc = 0 ∧ (State.resetFrom l).fl = l.flInit ∧ (State.resetFrom l).running = true ∧
    (State.resetFrom l).fault = { kind := .none, pc := 0, info := 0 } ∧ (State.resetFrom l).output = [] ∧
    (State.resetFrom l).params = l.params

/-- 70_reset_and_hazards.md R242 and R244 (decisions D27 and D28): booting with an image that fits memory places it at
address 0 upward and changes nothing else: every byte from the image's end on reads as after reset, and every field but
memory is as reset leaves it, so the machine starts at `pc = 0` with that program. -/
def Obligations.BootPlacesTheImageFromAddressZero : Prop :=
  ∀ (l : Launch) (image : List Byte), image.length ≤ 256 →
    ∃ s, State.boot l image = .loaded s ∧ (∀ (k : Nat) (h : k < image.length), s.mem.read k = image[k]) ∧
      (∀ k, image.length ≤ k → s.mem.read k = (State.resetFrom l).mem.read k) ∧ s.mem.wf ∧ { s with mem := [] } = State.resetFrom l

/-- 70_reset_and_hazards.md R244 (decisions D27 and D28): `LoadWrite` writes its byte within memory and nothing else, and
answers OutOfBounds outside it. R244 lets the host use it only after reset and before the first step; that `loadWrite` has
this effect in EVERY state, with no check of that, is the model's choice (log entry 14). -/
def Obligations.LoadWriteIsBoundsChecked : Prop :=
  ∀ (s : State) (addr : Nat) (v : Byte), s.mem.wf →
    (addr < 256 → ∃ t, s.loadWrite addr v = .loaded t ∧ t.mem.read addr = v ∧ MemKeptOutside addr s t ∧
      { t with mem := s.mem } = s) ∧
    (256 ≤ addr → s.loadWrite addr v = .outOfBounds addr)

/-- 70_reset_and_hazards.md R247 (decisions D28 and D33): the trace port shows `pc`, the registers, and those of the three
bytes at `pc` that are in memory. -/
def Obligations.TracePortShowsUpToThreeBytes : Prop :=
  ∀ s : State, s.snapshot.pc = s.pc ∧ s.snapshot.regs = s.x ∧
    (s.pc ≤ 253 → s.snapshot.bytes = [s.mem.read s.pc, s.mem.read (s.pc + 1), s.mem.read (s.pc + 2)]) ∧
    (s.pc = 254 → s.snapshot.bytes = [s.mem.read 254, s.mem.read 255]) ∧
    (s.pc = 255 → s.snapshot.bytes = [s.mem.read 255]) ∧
    (256 ≤ s.pc → s.snapshot.bytes = [])

/-- 70_reset_and_hazards.md R248 and R249 (decision D28): in a coherent state that is not enabled, the status outputs tell a
normal stop (`running = 0`, code 0) from a fatal stop (`running = 1`, a code other than 0, the `pc` in the record), and it is one of
the two. -/
def Obligations.StatusOutputsTellTheStopsApart : Prop :=
  ∀ s : State, s.StopCoherent → ¬Enabled s →
    (s.status.running = false ∧ s.status.faultKind = 0 ∧ s.halted = true ∧ s.faulted = false) ∨
    (s.status.running = true ∧ s.status.faultKind ≠ 0 ∧ s.status.faultPc = s.pc ∧ s.halted = false ∧ s.faulted = true)

/-! ### Whole-machine rules about faults -/

/-- 60_exceptions.md R214 and R215 (decision D10): a step that raises a fault leaves the state before it, except for the
record, which names the `pc` of the step. -/
def Obligations.FaultsAreAllOrNothing : Prop :=
  ∀ s t : State, step s = .next t → t.fault.kind ≠ .none →
    t = { s with fault := { kind := t.fault.kind, pc := s.pc, info := t.fault.info } }

/-- 30_encoding.md R66 and R67 (decisions D8 and D36): an instruction with a register operand of 8 or more takes OutOfBounds
with the first such operand, before anything else, in every state. -/
def Obligations.FirstBadRegisterOperandFaults : Prop :=
  ∀ (i : Instr) (s : State) (v : Byte), i.regOperands.find? (fun w => !namesRegister w) = some v →
    TakesFault i s .outOfBounds v.toNat

/-- 60_exceptions.md R211: where OutOfBounds comes from, and its information: a fetch near the top of memory, a register
operand of 8 to 255, or the address of a PUSH or CALL. The order of the checks is decision D12. -/
def Obligations.OutOfBoundsComesFromFetchOperandOrStore : Prop :=
  ∀ s t : State, s.RegsInRange → step s = .next t → t.fault.kind = .outOfBounds →
    (254 ≤ s.pc ∧ t.fault.info = max s.pc 256) ∨
    (s.pc ≤ 253 ∧ ∃ i v, dispatched s = .ok i ∧ v ∈ i.regOperands ∧ 8 ≤ v.toNat ∧ t.fault.info = v.toNat) ∨
    (s.pc ≤ 253 ∧ ∃ ra, (dispatched s = .ok (.push ra) ∨ dispatched s = .ok (.call ra)) ∧
      256 ≤ pushAddress s ∧ t.fault.info = pushAddress s)

/-- 60_exceptions.md R212. -/
def Obligations.DivisionByZeroComesFromDivAndModAlone : Prop :=
  ∀ (i : Instr) (s t : State), s.fault.kind = .none → exec i s = .next t →
    (t.fault.kind = .divisionByZero ↔
      ∃ (ra rb : Byte) (_ : ra.toNat < 8) (hb : rb.toNat < 8),
        (i = .div ra rb ∨ i = .mod ra rb) ∧ s.reg ⟨rb.toNat, hb⟩ = 0)

/-- 60_exceptions.md R216 (decision D23): StackUnderflow comes from POP and RET alone, exactly where SP is 256 or more at
the read, and it records SP. -/
def Obligations.StackUnderflowComesFromPopAndRetAlone : Prop :=
  ∀ (i : Instr) (s t : State), s.fault.kind = .none → exec i s = .next t →
    (t.fault.kind = .stackUnderflow ↔
      256 ≤ s.SP ∧ (i = .ret ∨ ∃ ra : Byte, ra.toNat < 8 ∧ i = .pop ra)) ∧
    (t.fault.kind = .stackUnderflow → t.fault.info = s.SP)

/-- 60_exceptions.md R216, 20_memory.md R45 and 43_stack.md R160 (decisions D22 and D23): at `W = 8` no step raises
StackUnderflow or ValueTooWide, and no OutOfBounds of a step at `pc` up to 253 has an address as its information. -/
def Obligations.NoStackFaultAtEightBits : Prop :=
  ∀ s t : State, s.RegsInRange → s.W = 8 → step s = .next t →
    t.fault.kind ≠ .stackUnderflow ∧ t.fault.kind ≠ .valueTooWide ∧
      (s.pc ≤ 253 → t.fault.kind = .outOfBounds → t.fault.info < 256)

/-! ### Whole-machine rules about what may change -/

/-- 10_state.md R26 (decision D3 is only about the reset value): no step but a CMP's writes a flag. -/
def Obligations.OnlyCmpWritesTheFlags : Prop :=
  ∀ s t : State, step s = .next t → t.fl ≠ s.fl → ∃ ra rb, dispatched s = .ok (.cmp ra rb)

/-- 10_state.md R27: HLT writes 0, no other instruction writes the running flag, no fault clears it, and it is 1 at
reset. -/
def Obligations.OnlyHltClearsTheRunningFlag : Prop :=
  (∀ (i : Instr) (s t : State), exec i s = .next t → t.running = if i = .hlt then false else s.running) ∧
    (∀ (s : State) (r : Raise), (s.enterFault r).running = s.running) ∧
    ∀ l : Launch, (State.resetFrom l).running = true

/-- 70_reset_and_hazards.md R246 (decisions D28 and D29): the output list grows by the value of a PRN's register, one event
per completed PRN, and by nothing else. -/
def Obligations.OutputGrowsOnlyByPrn : Prop :=
  ∀ (i : Instr) (s t : State), s.fault.kind = .none → exec i s = .next t →
    (t.output = s.output ∧ ((∃ ra, i = .prn ra) → t.fault.kind ≠ .none)) ∨
      ∃ (ra : Byte) (ha : ra.toNat < 8), i = .prn ra ∧ t.output = s.output ++ [s.reg ⟨ra.toNat, ha⟩]

/-- 20_memory.md R40 (section 1) and R44 (section 2): no step writes memory but a PUSH's or a CALL's, and that one writes at
most the one byte at the decremented SP (43_stack.md R159 and R160, 44_control_transfer.md R180). -/
def Obligations.OnlyPushAndCallWriteOneByte : Prop :=
  ∀ s t : State, s.RegsInRange → s.mem.wf → step s = .next t → ∀ addr, t.mem.read addr ≠ s.mem.read addr →
    (∃ ra, dispatched s = .ok (.push ra) ∨ dispatched s = .ok (.call ra)) ∧ addr = pushAddress s ∧ addr < 256

/-- 10_state.md R20 and R21, 41_alu.md R91: an instruction changes no register but the one its operand_a names, where its
rule writes that one, and, for PUSH, POP, CALL and RET, SP. -/
def Obligations.OnlyNamedRegistersAndTheStackPointerChange : Prop :=
  ∀ (i : Instr) (s t : State) (r : RegIx), exec i s = .next t → t.reg r ≠ s.reg r →
    (writesOperandA i = true ∧ i.regOperands.head? = some (BitVec.ofNat 8 r)) ∨
      (r = spIx ∧ (i = .ret ∨ ∃ ra, i = .push ra ∨ i = .pop ra ∨ i = .call ra))

/-- 30_encoding.md R76. -/
def Obligations.SequencerAdvancesByOnePlusOperandCount : Prop :=
  ∀ (i : Instr) (s t : State), s.fault.kind = .none → exec i s = .next t → t.fault.kind = .none →
    opPcw i.opcode = false →
    t.pc = s.pc + 1 + opCount i.opcode ∧ (s.pc ≤ 253 → t.pc ≤ 256 ∧ t.pc < 2 ^ s.PCW)

/-! ### The ALU -/

/-- 41_alu.md R100. -/
def Obligations.AddRule : Prop := BinaryRule .add 0xA0 fun W p q => (p + q) % 2 ^ W

/-- 41_alu.md R101. -/
def Obligations.SubRule : Prop := BinaryRule .sub 0xA1 fun W p q => (p + 2 ^ W - q) % 2 ^ W

/-- 41_alu.md R102. -/
def Obligations.MultRule : Prop := BinaryRule .mult 0xA2 fun W p q => (p * q) % 2 ^ W

/-- 41_alu.md R103 and R104 (decision D18). -/
def Obligations.DivideAndRemainderRules : Prop :=
  (DivideRule .div 0xA3 fun p q => p / q) ∧ DivideRule .mod 0xA4 fun p q => p % q

/-- 41_alu.md R105 and R106 (decision D13). -/
def Obligations.IncrementAndDecrementRules : Prop :=
  (UnaryRule .inc 0x65 fun W p => if p = 2 ^ W - 1 then 0 else p + 1) ∧
    UnaryRule .dec 0x66 fun W p => if p = 0 then 2 ^ W - 1 else p - 1

/-- 41_alu.md R107 (decision D15): bit by bit. -/
def Obligations.BitwiseAndRule : Prop := BinaryRule .and 0xA8 fun _ p q => p &&& q

/-- 41_alu.md R108 and R109. -/
def Obligations.BitwiseOrAndXorRules : Prop :=
  (BinaryRule .or 0xAA fun _ p q => p ||| q) ∧ BinaryRule .xor 0xAB fun _ p q => p ^^^ q

/-- 41_alu.md R110 (decision D14). -/
def Obligations.BitwiseNotRule : Prop := UnaryRule .not 0x69 fun W p => 2 ^ W - 1 - p

/-- 41_alu.md R111 and R112 (decisions D15 and D17): the whole register is the amount, and an amount of W or more gives
0. -/
def Obligations.ShiftRules : Prop :=
  (BinaryRule .shl 0xAC fun W p q => (p * 2 ^ q) % 2 ^ W) ∧ BinaryRule .shr 0xAD fun _ p q => p / 2 ^ q

/-- 41_alu.md R113 (decision D19): the unsigned comparison, exactly one flag set, nothing else written. -/
def Obligations.CompareSetsExactlyOneFlag : Prop :=
  (∀ ra rb, encode (.cmp ra rb) = [0xA7, ra, rb]) ∧ BadOperandsFault .cmp ∧
    ∀ (s : State) (ra rb : Byte) (ha : ra.toNat < 8) (hb : rb.toNat < 8),
      ∃ t, exec (.cmp ra rb) s = .next t ∧
        (t.fl.L = true ↔ s.reg ⟨ra.toNat, ha⟩ < s.reg ⟨rb.toNat, hb⟩) ∧
        (t.fl.G = true ↔ s.reg ⟨rb.toNat, hb⟩ < s.reg ⟨ra.toNat, ha⟩) ∧
        (t.fl.E = true ↔ s.reg ⟨ra.toNat, ha⟩ = s.reg ⟨rb.toNat, hb⟩) ∧
        t.fl.E.toNat + t.fl.G.toNat + t.fl.L.toNat = 1 ∧
        t.pc = s.pc + 3 ∧ RegsKept [] s t ∧ MemKept s t ∧ EngineKept s t ∧ t.output = s.output

/-! ### Halt, load and output -/

/-- 42_load_output_halt.md R140 (decision D20). -/
def Obligations.HaltRule : Prop :=
  encode .hlt = [0x01] ∧
    ∀ s : State, ∃ t, exec .hlt s = .next t ∧ t.running = false ∧ t.pc = s.pc + 1 ∧ RegsKept [] s t ∧ t.fl = s.fl ∧
      MemKept s t ∧ t.fault = s.fault ∧ t.params = s.params ∧ t.output = s.output ∧ step t = .fault .halted

/-- 42_load_output_halt.md R141: the immediate is zero-extended and never faults. -/
def Obligations.LoadImmediateRule : Prop :=
  (∀ ra imm, encode (.ldi ra imm) = [0x82, ra, imm]) ∧ (∀ imm : Byte, BadOperandFaults fun ra => .ldi ra imm) ∧
    ∀ (s : State) (ra imm : Byte) (ha : ra.toNat < 8), ∃ t, exec (.ldi ra imm) s = .next t ∧
      t.reg ⟨ra.toNat, ha⟩ = imm.toNat ∧ t.pc = s.pc + 3 ∧ OnlyRegs [⟨ra.toNat, ha⟩] s t

/-- 42_load_output_halt.md R142 (decision D24): a register copy, whatever memory holds. -/
def Obligations.LoadRegisterRule : Prop := BinaryRule .ld 0x83 fun _ _ q => q

/-- 42_load_output_halt.md R143 (decision D29). -/
def Obligations.PrintRule : Prop :=
  (∀ ra, encode (.prn ra) = [0x47, ra]) ∧ BadOperandFaults .prn ∧
    ∀ (s : State) (ra : Byte) (ha : ra.toNat < 8), ∃ t, exec (.prn ra) s = .next t ∧
      t.output = s.output ++ [s.reg ⟨ra.toNat, ha⟩] ∧ t.pc = s.pc + 2 ∧ RegsKept [] s t ∧ t.fl = s.fl ∧
      MemKept s t ∧ EngineKept s t

/-! ### The stack -/

/-- 43_stack.md R160 (decisions D21 and D22): SP is decremented modulo `2^W`, the register is stored at the new SP (for r7
the decremented value), and nothing else changes; a new SP outside memory takes OutOfBounds with it, and a value of 256 or
more is truncated or takes ValueTooWide, as `WIDE_STORE` says. -/
def Obligations.PushRule : Prop :=
  (∀ ra, encode (.push ra) = [0x45, ra]) ∧ BadOperandFaults .push ∧
    ∀ (s : State) (ra : Byte) (ha : ra.toNat < 8), s.RegsInRange → s.mem.wf →
      (256 ≤ pushAddress s → TakesFault (.push ra) s .outOfBounds (pushAddress s)) ∧
      (pushAddress s < 256 → 256 ≤ pushedValue s ⟨ra.toNat, ha⟩ → s.params.wideStore = .fault →
        TakesFault (.push ra) s .valueTooWide (pushAddress s)) ∧
      (pushAddress s < 256 → pushedValue s ⟨ra.toNat, ha⟩ < 256 ∨ s.params.wideStore = .truncate →
        ∃ t, exec (.push ra) s = .next t ∧ t.SP = pushAddress s ∧
          (t.mem.read (pushAddress s)).toNat = pushedValue s ⟨ra.toNat, ha⟩ % 256 ∧
          MemKeptOutside (pushAddress s) s t ∧ t.pc = s.pc + 2 ∧ RegsKept [spIx] s t ∧ t.fl = s.fl ∧
          EngineKept s t ∧ t.output = s.output)

/-- 43_stack.md R161 (decisions D21 and D23): the byte at SP, zero-extended, goes to the register and SP is incremented
modulo `2^W`; for r7 the popped byte is incremented; an SP outside memory takes StackUnderflow with it. -/
def Obligations.PopRule : Prop :=
  (∀ ra, encode (.pop ra) = [0x46, ra]) ∧ BadOperandFaults .pop ∧
    ∀ (s : State) (ra : Byte) (ha : ra.toNat < 8),
      (256 ≤ s.SP → TakesFault (.pop ra) s .stackUnderflow s.SP) ∧
      (s.SP < 256 → ∃ t, exec (.pop ra) s = .next t ∧
        (ra.toNat ≠ 7 → t.reg ⟨ra.toNat, ha⟩ = (s.mem.read s.SP).toNat ∧ t.SP = (s.SP + 1) % 2 ^ s.W) ∧
        (ra.toNat = 7 → t.SP = ((s.mem.read s.SP).toNat + 1) % 2 ^ s.W) ∧
        t.pc = s.pc + 2 ∧ OnlyRegs [⟨ra.toNat, ha⟩, spIx] s t)

/-- 43_stack.md R162 (derived by the spec): PUSH then POP of one register restores every register, where neither faults and
the value is a byte. -/
def Obligations.PushThenPopRestoresTheRegisters : Prop :=
  ∀ (s t u : State) (ra : Byte) (ha : ra.toNat < 8), s.RegsInRange → s.mem.wf → s.fault.kind = .none →
    s.reg ⟨ra.toNat, ha⟩ < 256 →
    exec (.push ra) s = .next t → t.fault.kind = .none → exec (.pop ra) t = .next u → u.fault.kind = .none →
    (∀ i, u.reg i = s.reg i) ∧ u.pc = s.pc + 4

/-- 43_stack.md R163 (derived by the spec): repeated PUSH lowers SP by 1 each time, for as many pushes as do not wrap it. -/
def Obligations.RepeatedPushLowersTheStackPointer : Prop :=
  ∀ (n : Nat) (s : State) (ra : Byte) (ha : ra.toNat < 8), s.RegsInRange → s.SP ≤ 256 →
    s.reg ⟨ra.toNat, ha⟩ < 256 → n ≤ s.SP →
    ∃ t, pushTimes ra n s = .next t ∧ t.fault = s.fault ∧ t.SP = s.SP - n ∧ t.pc = s.pc + 2 * n

/-! ### Control transfer -/

/-- 44_control_transfer.md R180 (decision D21): the return address `pc + 2` is stored at the decremented SP, and `pc` takes
the target register as it is after the decrement; a new SP outside memory takes OutOfBounds with it. A CALL that was fetched
has `pc` up to 253. -/
def Obligations.CallRule : Prop :=
  (∀ ra, encode (.call ra) = [0x50, ra]) ∧ BadOperandFaults .call ∧
    ∀ (s : State) (ra : Byte) (ha : ra.toNat < 8), s.RegsInRange → s.mem.wf → s.pc ≤ 253 →
      (256 ≤ pushAddress s → TakesFault (.call ra) s .outOfBounds (pushAddress s)) ∧
      (pushAddress s < 256 → ∃ t, exec (.call ra) s = .next t ∧ t.SP = pushAddress s ∧
        (t.mem.read (pushAddress s)).toNat = s.pc + 2 ∧ MemKeptOutside (pushAddress s) s t ∧
        t.pc = pushedValue s ⟨ra.toNat, ha⟩ ∧ RegsKept [spIx] s t ∧ t.fl = s.fl ∧ EngineKept s t ∧
        t.output = s.output)

/-- 44_control_transfer.md R181 (decision D23). -/
def Obligations.ReturnRule : Prop :=
  encode .ret = [0x11] ∧
    ∀ s : State, (256 ≤ s.SP → TakesFault .ret s .stackUnderflow s.SP) ∧
      (s.SP < 256 → ∃ t, exec .ret s = .next t ∧ t.pc = (s.mem.read s.SP).toNat ∧ t.SP = (s.SP + 1) % 2 ^ s.W ∧
        OnlyRegs [spIx] s t)

/-- 44_control_transfer.md R182, with the next fetch's fault for a target of 254 or more. -/
def Obligations.JumpRule : Prop :=
  (∀ ra, encode (.jmp ra) = [0x54, ra]) ∧ BadOperandFaults .jmp ∧
    ∀ (s : State) (ra : Byte) (ha : ra.toNat < 8), ∃ t, exec (.jmp ra) s = .next t ∧
      t.pc = s.reg ⟨ra.toNat, ha⟩ ∧ OnlyRegs [] s t ∧ (s.reg ⟨ra.toNat, ha⟩ = s.pc → t = s) ∧
      (Enabled s → 254 ≤ s.reg ⟨ra.toNat, ha⟩ →
        step t = .next { t with fault := { kind := .outOfBounds, pc := t.pc, info := max t.pc 256 } })

/-- 44_control_transfer.md R183 and R184. -/
def Obligations.EqualityJumpRules : Prop :=
  (CondJumpRule .jeq 0x55 fun f => f.E = true) ∧ CondJumpRule .jne 0x56 fun f => f.E = false

/-- 44_control_transfer.md R185 to R188 (decision D16). -/
def Obligations.OrderJumpRules : Prop :=
  (CondJumpRule .jgt 0x57 fun f => f.G = true) ∧ (CondJumpRule .jlt 0x58 fun f => f.L = true) ∧
    (CondJumpRule .jle 0x59 fun f => f.L = true ∨ f.E = true) ∧ CondJumpRule .jge 0x5A fun f => f.G = true ∨ f.E = true

/-- 44_control_transfer.md R190 (derived by the spec): a RET in any state whose SP is the one CALL left and whose byte there
is the one CALL stored returns to the address after the CALL, with SP as it was before the CALL. -/
def Obligations.CallThenReturnComesBack : Prop :=
  ∀ (s t u v : State) (ra : Byte), s.RegsInRange → s.mem.wf → s.pc ≤ 253 → s.fault.kind = .none →
    exec (.call ra) s = .next t → t.fault.kind = .none →
    u.params = t.params → u.SP = t.SP → u.mem.read t.SP = t.mem.read t.SP → exec .ret u = .next v →
    v.pc = s.pc + 2 ∧ v.SP = s.SP ∧ v.fault = u.fault

/-! ### The memory controller -/

/-- 20_memory.md R42. -/
def Obligations.MemoryReadIsBoundsChecked : Prop :=
  ∀ (s : State) (addr : Nat),
    (addr < 256 → s.memRead addr = .ok (s.mem.read addr)) ∧
    (256 ≤ addr → s.memRead addr = .error { kind := .outOfBounds, info := addr }) ∧
    (256 ≤ s.SP → s.loadAtSP = .error { kind := .stackUnderflow, info := s.SP })

/-- 20_memory.md R43 and R45 (decision D22): the address test first, then the width test. -/
def Obligations.MemoryWriteChecksAddressThenWidth : Prop :=
  ∀ (s : State) (addr v : Nat), s.mem.wf →
    (256 ≤ addr → s.memWrite addr v = .error { kind := .outOfBounds, info := addr }) ∧
    (addr < 256 → 256 ≤ v → s.params.wideStore = .fault →
      s.memWrite addr v = .error { kind := .valueTooWide, info := addr }) ∧
    (addr < 256 → v < 256 ∨ s.params.wideStore = .truncate →
      ∃ t, s.memWrite addr v = .ok t ∧ (t.mem.read addr).toNat = v % 256 ∧ MemKeptOutside addr s t ∧ t.mem.wf ∧
        { t with mem := s.mem } = s)

/-- 20_memory.md R56 (derived by the spec from R53, decision D34): a fetch after a PUSH or a CALL reads the byte that
instruction pushed, wherever among the three fetched bytes it stands, and the older bytes elsewhere. What the step after it
does, the undefined opcode's fault among it, is decided by those bytes. -/
def Obligations.FetchSeesTheByteJustPushed : Prop :=
  ∀ (s t : State) (ra : Byte) (ha : ra.toNat < 8), s.RegsInRange → s.mem.wf → s.fault.kind = .none →
    t.fault.kind = .none →
    (exec (.push ra) s = .next t → FetchSeesStored s t (pushedValue s ⟨ra.toNat, ha⟩)) ∧
      (exec (.call ra) s = .next t → FetchSeesStored s t (s.pc + 2))
end

