-- ==== Sys2Proof/Laws/Decode.lean ====
section
/-!
SUPPORT. What the dispatcher's answer says of the opcode byte and of the operand bytes.
-/
namespace Sys2Proof

/-- An accepted opcode byte is the instruction's own, and its operands are the first of the two fetched. -/
theorem decodeInstr_ok {op a b : Byte} {i : Instr} (h : decodeInstr op a b = .ok i) :
    i.opcode = op ∧ i.operandBytes = [a, b].take i.format.operands := by
  unfold decodeInstr at h
  split at h
  all_goals first
    | (next e => cases h; exact ⟨BitVec.eq_of_toNat_eq e.symm, rfl⟩)
    | cases h

/-- The dispatcher reads an instruction from its own opcode byte and operand bytes, whatever stands in the places of
operands it does not have. -/
theorem decodeInstr_opcode (i : Instr) (a b : Byte) :
    decodeInstr i.opcode (i.operandBytes.getD 0 a) (i.operandBytes.getD 1 b) = .ok i := by
  cases i <;> rfl

/-- A rejected opcode byte is rejected by its bit 5. -/
theorem decodeInstr_error {op a b : Byte} {u : UndefinedOpcode} (h : decodeInstr op a b = .error u) :
    u = undefinedOpcode op := by
  unfold decodeInstr at h
  split at h
  all_goals cases h
  rfl

/-- As many operand bytes as the format has. -/
theorem operandBytes_length (i : Instr) : i.operandBytes.length = i.format.operands := by
  cases i <;> rfl

end Sys2Proof
end

