-- ==== Sys2Proof/Laws/Memory.lean ====
section
/-!
SUPPORT. The laws of the memory list: a read after a write, and the canonical form kept by every write.
-/
namespace Sys2Proof.Machine

namespace Memory

@[simp] theorem read_nil (a : Nat) : Memory.read [] a = unlisted := rfl

theorem read_cons (k : Nat) (v : Byte) (m : Memory) (a : Nat) :
    Memory.read ((k, v) :: m) a = if k = a then v else Memory.read m a := rfl

/-- A memory whose every cell lies above an address reads as unlisted there. -/
theorem read_of_lt_all {m : Memory} {a : Nat} (h : ∀ c ∈ m, a < c.1) : Memory.read m a = unlisted := by
  induction m with
  | nil => rfl
  | cons c m ih =>
    obtain ⟨k, v⟩ := c
    have hk : a < k := h (k, v) (List.mem_cons_self ..)
    rw [read_cons, if_neg (by omega), ih fun c hc => h c (List.mem_cons_of_mem _ hc)]

theorem read_cell_append (a : Nat) (v : Byte) (m : Memory) (b : Nat) :
    Memory.read (cell a v ++ m) b = if v = unlisted then Memory.read m b else if a = b then v else Memory.read m b := by
  unfold cell
  split <;> simp [read_cons]

theorem wf_nil : Memory.wf [] := ⟨.nil, fun _ h => nomatch h⟩

theorem wf_tail {c : Host.Cell} {m : Memory} (h : Memory.wf (c :: m)) : Memory.wf m :=
  ⟨(List.pairwise_cons.1 h.1).2, fun d hd => h.2 d (List.mem_cons_of_mem _ hd)⟩

theorem lt_of_wf_cons {c : Host.Cell} {m : Memory} (h : Memory.wf (c :: m)) : ∀ d ∈ m, c.1 < d.1 :=
  (List.pairwise_cons.1 h.1).1

/-- A new cell in front of a canonical memory that lies above it. -/
theorem wf_cell_append {a : Nat} {v : Byte} {m : Memory} (ha : a < memSize) (hm : Memory.wf m)
    (hlt : ∀ d ∈ m, a < d.1) : Memory.wf (cell a v ++ m) := by
  unfold cell
  split
  · simpa using hm
  · next hv =>
    refine ⟨List.pairwise_cons.2 ⟨hlt, hm.1⟩, fun d hd => ?_⟩
    rcases List.mem_cons.1 hd with rfl | hd
    · exact ⟨ha, hv⟩
    · exact hm.2 d hd

/-- The addresses of a written memory are those it had, and the one written. -/
theorem mem_write {m : Memory} {a : Nat} {v : Byte} {c : Host.Cell} (h : c ∈ Memory.write m a v) :
    c.1 = a ∨ c ∈ m := by
  have hcell : ∀ {c : Host.Cell}, c ∈ cell a v → c.1 = a := by
    intro c hc
    unfold cell at hc
    split at hc
    · simp at hc
    · simp only [List.mem_singleton] at hc
      rw [hc]
  induction m with
  | nil => exact .inl (hcell h)
  | cons d m ih =>
    obtain ⟨k, b⟩ := d
    unfold write at h
    split at h
    · rcases List.mem_append.1 h with h | h
      · exact .inl (hcell h)
      · exact .inr h
    · split at h
      · rcases List.mem_append.1 h with h | h
        · exact .inl (hcell h)
        · exact .inr (List.mem_cons_of_mem _ h)
      · rcases List.mem_cons.1 h with rfl | h
        · exact .inr (List.mem_cons_self ..)
        · exact (ih h).imp id (List.mem_cons_of_mem _)

/-- A write keeps the canonical form. -/
theorem write_wf {m : Memory} {a : Nat} (v : Byte) (ha : a < memSize) (hm : Memory.wf m) :
    Memory.wf (Memory.write m a v) := by
  induction m with
  | nil => simpa [write] using wf_cell_append (v := v) ha wf_nil (by simp)
  | cons d m ih =>
    obtain ⟨k, b⟩ := d
    have hlt := lt_of_wf_cons hm
    unfold write
    split
    · next hak =>
      refine wf_cell_append ha hm fun d hd => ?_
      rcases List.mem_cons.1 hd with rfl | hd
      · exact hak
      · exact lt_trans hak (hlt d hd)
    · split
      · next hak => exact wf_cell_append ha (wf_tail hm) (hak ▸ hlt)
      · next h1 h2 =>
        have ih' := ih (wf_tail hm)
        refine ⟨List.pairwise_cons.2 ⟨fun d hd => ?_, ih'.1⟩, fun d hd => ?_⟩
        · rcases mem_write hd with h | h
          · show k < d.1
            omega
          · exact hlt d h
        · rcases List.mem_cons.1 hd with rfl | hd
          · exact hm.2 _ (List.mem_cons_self ..)
          · exact ih'.2 d hd

/-- A read after a write: the written byte at its address, every other byte as before. -/
theorem read_write {m : Memory} (a : Nat) (v : Byte) (b : Nat) (hm : Memory.wf m) :
    Memory.read (Memory.write m a v) b = if b = a then v else Memory.read m b := by
  induction m with
  | nil =>
    have h := read_cell_append a v [] b
    rw [List.append_nil] at h
    rw [write, h, read_nil]
    by_cases hv : v = unlisted
    · rw [if_pos hv, hv, ite_self]
    · rw [if_neg hv]
      exact if_congr eq_comm rfl rfl
  | cons d m ih =>
    obtain ⟨k, c⟩ := d
    have hlt := lt_of_wf_cons hm
    unfold write
    split
    · next hak =>
      have hun : Memory.read ((k, c) :: m) a = unlisted := by
        refine read_of_lt_all fun d hd => ?_
        rcases List.mem_cons.1 hd with rfl | hd
        · exact hak
        · exact lt_trans hak (hlt d hd)
      rw [read_cell_append]
      by_cases hv : v = unlisted
      · rw [if_pos hv]
        by_cases hb : b = a
        · rw [if_pos hb, hb, hun, hv]
        · rw [if_neg hb]
      · rw [if_neg hv]
        exact if_congr eq_comm rfl rfl
    · split
      · next hak =>
        subst hak
        have hun : Memory.read m a = unlisted := read_of_lt_all hlt
        rw [read_cell_append, read_cons]
        by_cases hb : b = a
        · subst hb
          rw [if_pos rfl, if_pos rfl, hun]
          split
          · next hv => exact hv.symm
          · rfl
        · rw [if_neg hb, if_neg (Ne.symm hb), if_neg (Ne.symm hb), ite_self]
      · next h2 =>
        rw [read_cons, ih (wf_tail hm), read_cons]
        by_cases hb : b = a
        · rw [if_pos hb, if_pos hb, if_neg (by omega)]
        · rw [if_neg hb, if_neg hb]

end Memory

end Sys2Proof.Machine
end

