-- ==== Sys2Proof/Laws/State.lean ====
section
/-!
SUPPORT. One lemma per field per update of the state, so that no proof unfolds a record update.
-/
namespace Sys2Proof.Machine

variable (s : State) (i j : RegIx) (v : Nat) (f : Format) (r : Raise)

@[simp] theorem setReg_params : (s.setReg i v).params = s.params := rfl
@[simp] theorem setReg_pc : (s.setReg i v).pc = s.pc := rfl
@[simp] theorem setReg_fl : (s.setReg i v).fl = s.fl := rfl
@[simp] theorem setReg_running : (s.setReg i v).running = s.running := rfl
@[simp] theorem setReg_fault : (s.setReg i v).fault = s.fault := rfl
@[simp] theorem setReg_mem : (s.setReg i v).mem = s.mem := rfl
@[simp] theorem setReg_output : (s.setReg i v).output = s.output := rfl
@[simp] theorem setReg_W : (s.setReg i v).W = s.W := rfl
@[simp] theorem setReg_PCW : (s.setReg i v).PCW = s.PCW := rfl

@[simp] theorem reg_setReg_same : (s.setReg i v).reg i = truncW s.W v := by
  simp [State.reg, State.setReg]

theorem reg_setReg_other {i j : RegIx} (h : j ≠ i) : (s.setReg i v).reg j = s.reg j := by
  have : (i : Nat) ≠ (j : Nat) := fun e => h (Fin.ext e.symm)
  simp [State.reg, State.setReg, this]

theorem reg_setReg : (s.setReg i v).reg j = if j = i then truncW s.W v else s.reg j := by
  split
  · next h => subst h; exact reg_setReg_same s j v
  · next h => exact reg_setReg_other s v h

@[simp] theorem advance_params : (s.advance f).params = s.params := rfl
@[simp] theorem advance_x : (s.advance f).x = s.x := rfl
@[simp] theorem advance_reg : (s.advance f).reg i = s.reg i := rfl
@[simp] theorem advance_SP : (s.advance f).SP = s.SP := rfl
@[simp] theorem advance_pc : (s.advance f).pc = s.pc + f.length := rfl
@[simp] theorem advance_fl : (s.advance f).fl = s.fl := rfl
@[simp] theorem advance_running : (s.advance f).running = s.running := rfl
@[simp] theorem advance_fault : (s.advance f).fault = s.fault := rfl
@[simp] theorem advance_mem : (s.advance f).mem = s.mem := rfl
@[simp] theorem advance_output : (s.advance f).output = s.output := rfl
@[simp] theorem advance_W : (s.advance f).W = s.W := rfl
@[simp] theorem advance_PCW : (s.advance f).PCW = s.PCW := rfl

@[simp] theorem enterFault_params : (s.enterFault r).params = s.params := rfl
@[simp] theorem enterFault_x : (s.enterFault r).x = s.x := rfl
@[simp] theorem enterFault_reg : (s.enterFault r).reg i = s.reg i := rfl
@[simp] theorem enterFault_pc : (s.enterFault r).pc = s.pc := rfl
@[simp] theorem enterFault_fl : (s.enterFault r).fl = s.fl := rfl
@[simp] theorem enterFault_running : (s.enterFault r).running = s.running := rfl
@[simp] theorem enterFault_fault : (s.enterFault r).fault = { kind := r.kind, pc := s.pc, info := r.info } := rfl
@[simp] theorem enterFault_mem : (s.enterFault r).mem = s.mem := rfl
@[simp] theorem enterFault_output : (s.enterFault r).output = s.output := rfl
@[simp] theorem enterFault_W : (s.enterFault r).W = s.W := rfl
@[simp] theorem enterFault_PCW : (s.enterFault r).PCW = s.PCW := rfl

@[simp] theorem emit_params : (s.emit v).params = s.params := rfl
@[simp] theorem emit_x : (s.emit v).x = s.x := rfl
@[simp] theorem emit_reg : (s.emit v).reg i = s.reg i := rfl
@[simp] theorem emit_pc : (s.emit v).pc = s.pc := rfl
@[simp] theorem emit_fl : (s.emit v).fl = s.fl := rfl
@[simp] theorem emit_running : (s.emit v).running = s.running := rfl
@[simp] theorem emit_fault : (s.emit v).fault = s.fault := rfl
@[simp] theorem emit_mem : (s.emit v).mem = s.mem := rfl
@[simp] theorem emit_output : (s.emit v).output = s.output ++ [v] := rfl
@[simp] theorem emit_W : (s.emit v).W = s.W := rfl
@[simp] theorem emit_PCW : (s.emit v).PCW = s.PCW := rfl

@[simp] theorem withPc_reg (p : Nat) : State.reg { s with pc := p } i = s.reg i := rfl
@[simp] theorem withPc_SP (p : Nat) : State.SP { s with pc := p } = s.SP := rfl
@[simp] theorem withPc_W (p : Nat) : State.W { s with pc := p } = s.W := rfl
@[simp] theorem withPc_PCW (p : Nat) : State.PCW { s with pc := p } = s.PCW := rfl
@[simp] theorem withFl_reg (g : Flags) : State.reg { s with fl := g } i = s.reg i := rfl
@[simp] theorem withFl_W (g : Flags) : State.W { s with fl := g } = s.W := rfl
@[simp] theorem withFl_PCW (g : Flags) : State.PCW { s with fl := g } = s.PCW := rfl
@[simp] theorem withRunning_reg (b : Bool) : State.reg { s with running := b } i = s.reg i := rfl
@[simp] theorem withRunning_W (b : Bool) : State.W { s with running := b } = s.W := rfl
@[simp] theorem withRunning_PCW (b : Bool) : State.PCW { s with running := b } = s.PCW := rfl
@[simp] theorem withMem_reg (m : Memory) : State.reg { s with mem := m } i = s.reg i := rfl
@[simp] theorem withMem_SP (m : Memory) : State.SP { s with mem := m } = s.SP := rfl
@[simp] theorem withMem_W (m : Memory) : State.W { s with mem := m } = s.W := rfl
@[simp] theorem withMem_PCW (m : Memory) : State.PCW { s with mem := m } = s.PCW := rfl

/-! ### SP -/

@[simp] theorem decSP_params : s.decSP.params = s.params := rfl
@[simp] theorem decSP_pc : s.decSP.pc = s.pc := rfl
@[simp] theorem decSP_fl : s.decSP.fl = s.fl := rfl
@[simp] theorem decSP_running : s.decSP.running = s.running := rfl
@[simp] theorem decSP_fault : s.decSP.fault = s.fault := rfl
@[simp] theorem decSP_mem : s.decSP.mem = s.mem := rfl
@[simp] theorem decSP_output : s.decSP.output = s.output := rfl
@[simp] theorem decSP_W : s.decSP.W = s.W := rfl
@[simp] theorem decSP_PCW : s.decSP.PCW = s.PCW := rfl

theorem decSP_reg_other {i : RegIx} (h : i ≠ spIx) : s.decSP.reg i = s.reg i := reg_setReg_other s _ h

@[simp] theorem incSP_params : s.incSP.params = s.params := rfl
@[simp] theorem incSP_pc : s.incSP.pc = s.pc := rfl
@[simp] theorem incSP_fl : s.incSP.fl = s.fl := rfl
@[simp] theorem incSP_running : s.incSP.running = s.running := rfl
@[simp] theorem incSP_fault : s.incSP.fault = s.fault := rfl
@[simp] theorem incSP_mem : s.incSP.mem = s.mem := rfl
@[simp] theorem incSP_output : s.incSP.output = s.output := rfl
@[simp] theorem incSP_W : s.incSP.W = s.W := rfl
@[simp] theorem incSP_PCW : s.incSP.PCW = s.PCW := rfl

@[simp] theorem incSP_SP : s.incSP.SP = truncW s.W (s.SP + 1) := reg_setReg_same s spIx _

theorem incSP_reg_other {i : RegIx} (h : i ≠ spIx) : s.incSP.reg i = s.reg i := reg_setReg_other s _ h

end Sys2Proof.Machine
end

