-- ==== Sys2Proof/Laws/Word.lean ====
section
/-!
SUPPORT. Reduction modulo `2^W` (00_scope.md R12), and the bounds that the widths W and PCW give.
-/
namespace Sys2Proof

theorem truncW_lt (W v : Nat) : truncW W v < 2 ^ W := Nat.mod_lt _ (Nat.two_pow_pos W)

theorem truncW_of_lt {W v : Nat} (h : v < 2 ^ W) : truncW W v = v := Nat.mod_eq_of_lt h

@[simp] theorem truncW_truncW (W v : Nat) : truncW W (truncW W v) = truncW W v := truncW_of_lt (truncW_lt W v)

theorem truncIntW_lt (W : Nat) (v : Int) : truncIntW W v < 2 ^ W := by
  have hp : (0 : Int) < (2 ^ W : Nat) := by exact_mod_cast Nat.two_pow_pos W
  have h := Int.emod_lt_of_pos v hp
  have h0 := Int.emod_nonneg v hp.ne'
  unfold truncIntW
  omega

/-- A natural number reduces the same way as an integer. -/
theorem truncIntW_ofNat (W v : Nat) : truncIntW W (v : Int) = truncW W v := by
  unfold truncIntW truncW
  rw [← Int.natCast_mod, Int.toNat_natCast]

/-- A negative value above `-2^W` reduces to itself plus `2^W` (R12). -/
theorem truncIntW_neg {W : Nat} {v : Int} (h : v < 0) (h' : -(2 ^ W : Nat) ≤ v) :
    truncIntW W v = (v + (2 ^ W : Nat)).toNat := by
  unfold truncIntW
  rw [← Int.add_emod_right, Int.emod_eq_of_lt (by omega) (by omega)]

/-- One less, modulo `2^W`: 0 wraps to `2^W - 1`. -/
theorem truncIntW_pred {W p : Nat} (h : p < 2 ^ W) :
    truncIntW W ((p : Int) - 1) = if p = 0 then 2 ^ W - 1 else p - 1 := by
  split
  · next h0 =>
    subst h0
    rw [truncIntW_neg (by omega) (by omega)]
    omega
  · next h0 =>
    have : ((p : Int) - 1) = ((p - 1 : Nat) : Int) := by omega
    rw [this, truncIntW_ofNat, truncW_of_lt (by omega)]

namespace Params

variable (p : Params)

theorem eight_le_W : 8 ≤ p.W := by unfold W; omega

theorem W_le_PCW : p.W ≤ p.PCW := le_max_left _ _

theorem nine_le_PCW : 9 ≤ p.PCW := le_max_right _ _

theorem byte_lt_pow_W : 2 ^ 8 ≤ 2 ^ p.W := Nat.pow_le_pow_right (by decide) p.eight_le_W

theorem pow_W_le_pow_PCW : 2 ^ p.W ≤ 2 ^ p.PCW := Nat.pow_le_pow_right (by decide) p.W_le_PCW

theorem le_pow_PCW : 512 ≤ 2 ^ p.PCW :=
  le_trans (by decide : 512 ≤ 2 ^ 9) (Nat.pow_le_pow_right (by decide) p.nine_le_PCW)

end Params

end Sys2Proof
end

