-- ==== Sys2Proof/Laws/Ops.lean ====
section
/-!
SUPPORT. For each shared operation, once, everything it can answer.
-/
namespace Sys2Proof.Machine

variable {s t : State}

/-! ### Register operands -/

theorem regOperand_ok {v : Byte} (h : v.toNat < 8) : regOperand v = .ok ⟨v.toNat, h⟩ := by
  rw [regOperand, dif_pos h]

theorem regOperand_bad {v : Byte} (h : 8 ≤ v.toNat) : regOperand v = raise .outOfBounds v.toNat := by
  rw [regOperand, dif_neg (by omega)]

/-! ### Memory access -/

theorem memRead_ok {a : Nat} (h : a < memSize) : s.memRead a = .ok (s.mem.read a) := by
  rw [State.memRead, if_neg (by omega)]

theorem memRead_bad {a : Nat} (h : memSize ≤ a) : s.memRead a = raise .outOfBounds a := by
  rw [State.memRead, if_pos h]

theorem memWrite_bad {a v : Nat} (h : memSize ≤ a) : s.memWrite a v = raise .outOfBounds a := by
  rw [State.memWrite, if_pos h]

theorem memWrite_wide {a v : Nat} (h : a < memSize) (hv : 2 ^ 8 ≤ v) (hw : s.params.wideStore = .fault) :
    s.memWrite a v = raise .valueTooWide a := by
  rw [State.memWrite, if_neg (by omega), if_pos ⟨hv, hw⟩]

theorem memWrite_ok {a v : Nat} (h : a < memSize) (hv : v < 2 ^ 8 ∨ s.params.wideStore = .truncate) :
    s.memWrite a v = .ok { s with mem := s.mem.write a (BitVec.ofNat 8 v) } := by
  rw [State.memWrite, if_neg (by omega), if_neg]
  rintro ⟨h1, h2⟩
  rcases hv with hv | hv
  · omega
  · rw [h2] at hv
    cases hv

/-- The three answers of a memory write. -/
theorem memWrite_cases (s : State) (a v : Nat) :
    (memSize ≤ a ∧ s.memWrite a v = raise .outOfBounds a) ∨
      (a < memSize ∧ 2 ^ 8 ≤ v ∧ s.params.wideStore = .fault ∧ s.memWrite a v = raise .valueTooWide a) ∨
      (a < memSize ∧ (v < 2 ^ 8 ∨ s.params.wideStore = .truncate) ∧
        s.memWrite a v = .ok { s with mem := s.mem.write a (BitVec.ofNat 8 v) }) := by
  rcases Nat.lt_or_ge a memSize with ha | ha
  · by_cases hv : 2 ^ 8 ≤ v ∧ s.params.wideStore = .fault
    · exact .inr (.inl ⟨ha, hv.1, hv.2, memWrite_wide ha hv.1 hv.2⟩)
    · have h : v < 2 ^ 8 ∨ s.params.wideStore = .truncate := by
        rcases Nat.lt_or_ge v (2 ^ 8) with h | h
        · exact .inl h
        · refine .inr ?_
          cases hw : s.params.wideStore
          · rfl
          · exact absurd ⟨h, hw⟩ hv
      exact .inr (.inr ⟨ha, h, memWrite_ok ha h⟩)
  · exact .inl ⟨ha, memWrite_bad ha⟩

theorem loadAtSP_ok (h : s.SP < memSize) : s.loadAtSP = .ok (s.mem.read s.SP) := by
  rw [State.loadAtSP, if_neg (by omega), memRead_ok h]

theorem loadAtSP_bad (h : memSize ≤ s.SP) : s.loadAtSP = raise .stackUnderflow s.SP := by
  rw [State.loadAtSP, if_pos h]

/-! ### SP -/

/-- The decremented SP (43_stack.md R159). -/
theorem decSP_SP (h : s.SP < 2 ^ s.W) : s.decSP.SP = if s.SP = 0 then 2 ^ s.W - 1 else s.SP - 1 := by
  have h1 : s.decSP.SP = truncW s.W (truncIntW s.W ((s.SP : Int) - 1)) := reg_setReg_same s spIx _
  rw [h1, truncW_of_lt (truncIntW_lt _ _), truncIntW_pred h]

/-! ### The end of a step -/

@[simp] theorem commit_ok : commit s (.ok t) = .next t := rfl

@[simp] theorem commit_error (r : Raise) : commit s (.error r) = .next (s.enterFault r) := rfl

@[simp] theorem commit_raise (k : FaultKind) (n : Nat) :
    commit s (raise k n) = .next (s.enterFault { kind := k, info := n }) := rfl

@[simp] theorem sequenced_ok (f : Format) : sequenced f s (.ok t) = .next (t.advance f) := rfl

@[simp] theorem sequenced_error (f : Format) (r : Raise) : sequenced f s (.error r) = .next (s.enterFault r) := rfl

@[simp] theorem sequenced_raise (f : Format) (k : FaultKind) (n : Nat) :
    sequenced f s (raise k n) = .next (s.enterFault { kind := k, info := n }) := rfl

/-! ### The ALU's shapes -/

theorem aluBinary_ok {f : Nat → Nat → Nat → Nat} {ra rb : Byte} (ha : ra.toNat < 8) (hb : rb.toNat < 8) :
    aluBinary f ra rb s =
      .ok (s.setReg ⟨ra.toNat, ha⟩ (f s.W (s.reg ⟨ra.toNat, ha⟩) (s.reg ⟨rb.toNat, hb⟩))) := by
  rw [aluBinary, regOperand_ok ha, regOperand_ok hb]
  rfl

theorem aluBinary_bad_a {f : Nat → Nat → Nat → Nat} {ra rb : Byte} (ha : 8 ≤ ra.toNat) :
    aluBinary f ra rb s = raise .outOfBounds ra.toNat := by
  rw [aluBinary, regOperand_bad ha]
  rfl

theorem aluBinary_bad_b {f : Nat → Nat → Nat → Nat} {ra rb : Byte} (ha : ra.toNat < 8) (hb : 8 ≤ rb.toNat) :
    aluBinary f ra rb s = raise .outOfBounds rb.toNat := by
  rw [aluBinary, regOperand_ok ha, regOperand_bad hb]
  rfl

theorem aluDivide_ok {f : Nat → Nat → Nat → Nat} {ra rb : Byte} (ha : ra.toNat < 8) (hb : rb.toNat < 8)
    (h0 : s.reg ⟨rb.toNat, hb⟩ ≠ 0) :
    aluDivide f ra rb s =
      .ok (s.setReg ⟨ra.toNat, ha⟩ (f s.W (s.reg ⟨ra.toNat, ha⟩) (s.reg ⟨rb.toNat, hb⟩))) := by
  rw [aluDivide, regOperand_ok ha, regOperand_ok hb]
  show (if s.reg ⟨rb.toNat, hb⟩ = 0 then _ else _) = _
  rw [if_neg h0]
  rfl

theorem aluDivide_zero {f : Nat → Nat → Nat → Nat} {ra rb : Byte} (ha : ra.toNat < 8) (hb : rb.toNat < 8)
    (h0 : s.reg ⟨rb.toNat, hb⟩ = 0) : aluDivide f ra rb s = raise .divisionByZero rb.toNat := by
  rw [aluDivide, regOperand_ok ha, regOperand_ok hb]
  show (if s.reg ⟨rb.toNat, hb⟩ = 0 then _ else _) = _
  rw [if_pos h0]

theorem aluDivide_bad_a {f : Nat → Nat → Nat → Nat} {ra rb : Byte} (ha : 8 ≤ ra.toNat) :
    aluDivide f ra rb s = raise .outOfBounds ra.toNat := by
  rw [aluDivide, regOperand_bad ha]
  rfl

theorem aluDivide_bad_b {f : Nat → Nat → Nat → Nat} {ra rb : Byte} (ha : ra.toNat < 8) (hb : 8 ≤ rb.toNat) :
    aluDivide f ra rb s = raise .outOfBounds rb.toNat := by
  rw [aluDivide, regOperand_ok ha, regOperand_bad hb]
  rfl

theorem aluUnary_ok {f : Nat → Nat → Nat} {ra : Byte} (ha : ra.toNat < 8) :
    aluUnary f ra s = .ok (s.setReg ⟨ra.toNat, ha⟩ (f s.W (s.reg ⟨ra.toNat, ha⟩))) := by
  rw [aluUnary, regOperand_ok ha]
  rfl

theorem aluUnary_bad {f : Nat → Nat → Nat} {ra : Byte} (ha : 8 ≤ ra.toNat) :
    aluUnary f ra s = raise .outOfBounds ra.toNat := by
  rw [aluUnary, regOperand_bad ha]
  rfl

/-- The shifted value and the shortcut for a large amount are the same modulo `2^W` (41_alu.md R111). -/
theorem truncW_aluShl (W p q : Nat) : truncW W (aluShl W p q) = (p * 2 ^ q) % 2 ^ W := by
  unfold aluShl truncW
  split
  · rw [Nat.shiftLeft_eq]
  · next h =>
    obtain ⟨k, rfl⟩ := Nat.exists_eq_add_of_le (Nat.le_of_not_lt h)
    rw [Nat.pow_add, ← Nat.mul_assoc, Nat.mul_right_comm, Nat.mul_mod_left, Nat.zero_mod]

/-- As `truncW_aluShl`, for the right shift of a W-bit value (R112). -/
theorem aluShr_eq {W p : Nat} (q : Nat) (hp : p < 2 ^ W) : aluShr W p q = p / 2 ^ q := by
  unfold aluShr
  split
  · rw [Nat.shiftRight_eq_div_pow]
  · next h =>
    have : p < 2 ^ q := lt_of_lt_of_le hp (Nat.pow_le_pow_right (by decide) (Nat.le_of_not_lt h))
    rw [Nat.div_eq_of_lt this]

/-! ### Jumps -/

theorem jumpIf_ok {taken : Bool} {ra : Byte} (ha : ra.toNat < 8) :
    jumpIf taken ra s = .ok { s with pc := if taken then s.reg ⟨ra.toNat, ha⟩ else s.pc + 2 } := by
  rw [jumpIf, regOperand_ok ha]
  rfl

theorem jumpIf_bad {taken : Bool} {ra : Byte} (ha : 8 ≤ ra.toNat) :
    jumpIf taken ra s = raise .outOfBounds ra.toNat := by
  rw [jumpIf, regOperand_bad ha]
  rfl

end Sys2Proof.Machine
end

