-- ==== Sys2Proof/Laws/Exec.lean ====
section
/-!
SUPPORT. What an instruction can do, said once: `exec_effect`. A proof about every instruction takes cases on `Effect`
instead of unfolding the meanings.
-/
/-- The instructions with operand_a a register and `op[4] = 0` whose rule only reads that register. -/
def Sys2Proof.Instr.onlyReadsA : Sys2Proof.Instr → Bool
  | .cmp _ _ | .prn _ | .push _ => true
  | _ => false

namespace Sys2Proof.Machine

/-- The fault that an instruction raises in a state, with the reason for it. -/
inductive Raises (s : State) : Instr → Raise → Prop where
  | badOperand {i : Instr} {v : Byte} (hv : v ∈ i.regOperands) (h : 8 ≤ v.toNat) :
      Raises s i { kind := .outOfBounds, info := v.toNat }
  | zeroDivisor {i : Instr} {ra rb : Byte} (hi : i = .div ra rb ∨ i = .mod ra rb) (ha : ra.toNat < 8)
      (hb : rb.toNat < 8) (h0 : s.reg ⟨rb.toNat, hb⟩ = 0) : Raises s i { kind := .divisionByZero, info := rb.toNat }
  | underflow {i : Instr} (hi : (∃ ra : Byte, ra.toNat < 8 ∧ i = .pop ra) ∨ i = .ret) (h : memSize ≤ s.SP) :
      Raises s i { kind := .stackUnderflow, info := s.SP }
  | storeOutOfBounds {i : Instr} {ra : Byte} (hi : i = .push ra ∨ i = .call ra) (h : memSize ≤ s.decSP.SP) :
      Raises s i { kind := .outOfBounds, info := s.decSP.SP }
  | storeTooWide {i : Instr} {ra : Byte} {a : RegIx} {v : Nat} (ha : ra.toNat = a)
      (hi : (i = .push ra ∧ v = s.decSP.reg a) ∨ (i = .call ra ∧ v = s.pc + 2)) (h : s.decSP.SP < memSize)
      (hv : 2 ^ 8 ≤ v) (hw : s.params.wideStore = .fault) :
      Raises s i { kind := .valueTooWide, info := s.decSP.SP }

/-- The next states of an instruction: the fault entry, or its own effect. -/
inductive Effect (s : State) : Instr → State → Prop where
  | faults {i : Instr} {r : Raise} (h : Raises s i r) : Effect s i (s.enterFault r)
  | setsRegister {i : Instr} (a : RegIx) (v : Nat) (hp : opPcw i.opcode = false)
      (hn : i.onlyReadsA = false) (hi : i.regOperands.head? = some (BitVec.ofNat 8 a)) :
      Effect s i ((s.setReg a v).advance i.format)
  | setsFlags (ra rb : Byte) (a b : RegIx) (ha : ra.toNat = a) (hb : rb.toNat = b) :
      Effect s (.cmp ra rb) (State.advance { s with fl := Flags.ofCompare (s.reg a) (s.reg b) } .f2)
  | halts : Effect s .hlt (State.advance { s with running := false } .f0)
  | emits (ra : Byte) (a : RegIx) (ha : ra.toNat = a) : Effect s (.prn ra) ((s.emit (s.reg a)).advance .f1)
  | pushes (ra : Byte) (a : RegIx) (ha : ra.toNat = a) (h : s.decSP.SP < memSize)
      (hv : s.decSP.reg a < 2 ^ 8 ∨ s.params.wideStore = .truncate) :
      Effect s (.push ra)
        (State.advance { s.decSP with mem := s.mem.write s.decSP.SP (BitVec.ofNat 8 (s.decSP.reg a)) } .f1)
  | pops (ra : Byte) (a : RegIx) (ha : ra.toNat = a) (h : s.SP < memSize) :
      Effect s (.pop ra) ((s.setReg a (s.mem.read s.SP).toNat).incSP.advance .f1)
  | calls (ra : Byte) (a : RegIx) (ha : ra.toNat = a) (h : s.decSP.SP < memSize)
      (hv : s.pc + 2 < 2 ^ 8 ∨ s.params.wideStore = .truncate) :
      Effect s (.call ra)
        { s.decSP with mem := s.mem.write s.decSP.SP (BitVec.ofNat 8 (s.pc + 2)), pc := s.decSP.reg a }
  | returns (h : s.SP < memSize) : Effect s .ret (State.incSP { s with pc := (s.mem.read s.SP).toNat })
  | jumps {i : Instr} (a : RegIx) (p : Nat) (hp : opPcw i.opcode = true)
      (hi : i.regOperands = [BitVec.ofNat 8 a]) (h : p = s.reg a ∨ p = s.pc + 2) (hc : ∀ ra, i ≠ .call ra) :
      Effect s i { s with pc := p }

/-- An operand byte that names a register, and one that does not. -/
theorem operand_cases (v : Byte) : v.toNat < 8 ∨ 8 ≤ v.toNat := Nat.lt_or_ge _ _

theorem ofNat_toNat_ix (v : Byte) (h : v.toNat < 8) : BitVec.ofNat 8 (⟨v.toNat, h⟩ : RegIx) = v := by
  simp

section shapes

variable {s t : State} {i : Instr}

theorem effect_of_binary {f : Nat → Nat → Nat → Nat} {ra rb : Byte} (hf : i.format = .f2)
    (hp : opPcw i.opcode = false) (hn : i.onlyReadsA = false) (hi : i.regOperands = [ra, rb])
    (h : sequenced .f2 s (aluBinary f ra rb s) = .next t) : Effect s i t := by
  rcases operand_cases ra with ha | ha
  · rcases operand_cases rb with hb | hb
    · rw [aluBinary_ok ha hb, sequenced_ok, ← hf] at h
      cases h
      exact .setsRegister _ _ hp hn (by rw [hi, ofNat_toNat_ix]; rfl)
    · rw [aluBinary_bad_b ha hb, sequenced_raise] at h
      cases h
      exact .faults (.badOperand (by rw [hi]; simp) hb)
  · rw [aluBinary_bad_a ha, sequenced_raise] at h
    cases h
    exact .faults (.badOperand (by rw [hi]; simp) ha)

theorem effect_of_divide {f : Nat → Nat → Nat → Nat} {ra rb : Byte} (hf : i.format = .f2)
    (hp : opPcw i.opcode = false) (hn : i.onlyReadsA = false) (hi : i.regOperands = [ra, rb]) (hd : i = .div ra rb ∨ i = .mod ra rb)
    (h : sequenced .f2 s (aluDivide f ra rb s) = .next t) : Effect s i t := by
  rcases operand_cases ra with ha | ha
  · rcases operand_cases rb with hb | hb
    · by_cases h0 : s.reg ⟨rb.toNat, hb⟩ = 0
      · rw [aluDivide_zero ha hb h0, sequenced_raise] at h
        cases h
        exact .faults (.zeroDivisor hd ha hb h0)
      · rw [aluDivide_ok ha hb h0, sequenced_ok, ← hf] at h
        cases h
        exact .setsRegister _ _ hp hn (by rw [hi, ofNat_toNat_ix]; rfl)
    · rw [aluDivide_bad_b ha hb, sequenced_raise] at h
      cases h
      exact .faults (.badOperand (by rw [hi]; simp) hb)
  · rw [aluDivide_bad_a ha, sequenced_raise] at h
    cases h
    exact .faults (.badOperand (by rw [hi]; simp) ha)

theorem effect_of_unary {f : Nat → Nat → Nat} {ra : Byte} (hf : i.format = .f1) (hp : opPcw i.opcode = false)
    (hn : i.onlyReadsA = false) (hi : i.regOperands = [ra]) (h : sequenced .f1 s (aluUnary f ra s) = .next t) : Effect s i t := by
  rcases operand_cases ra with ha | ha
  · rw [aluUnary_ok ha, sequenced_ok, ← hf] at h
    cases h
    exact .setsRegister _ _ hp hn (by rw [hi, ofNat_toNat_ix]; rfl)
  · rw [aluUnary_bad ha, sequenced_raise] at h
    cases h
    exact .faults (.badOperand (by rw [hi]; simp) ha)

theorem effect_of_jump {taken : Bool} {ra : Byte} (hp : opPcw i.opcode = true) (hi : i.regOperands = [ra])
    (hc : ∀ rb, i ≠ .call rb) (h : commit s (jumpIf taken ra s) = .next t) : Effect s i t := by
  rcases operand_cases ra with ha | ha
  · rw [jumpIf_ok ha, commit_ok] at h
    cases h
    refine .jumps ⟨ra.toNat, ha⟩ _ hp (by rw [hi, ofNat_toNat_ix]) ?_ hc
    cases taken
    · exact .inr rfl
    · exact .inl rfl
  · rw [jumpIf_bad ha, commit_raise] at h
    cases h
    exact .faults (.badOperand (by rw [hi]; simp) ha)

end shapes

section single

variable {s t : State}

theorem effect_of_cmp {ra rb : Byte} (h : execCmp ra rb s = .next t) : Effect s (.cmp ra rb) t := by
  unfold execCmp at h
  rcases operand_cases ra with ha | ha
  · rcases operand_cases rb with hb | hb
    · rw [regOperand_ok ha, regOperand_ok hb] at h
      cases h
      exact .setsFlags ra rb ⟨ra.toNat, ha⟩ ⟨rb.toNat, hb⟩ rfl rfl
    · rw [regOperand_ok ha, regOperand_bad hb] at h
      cases h
      exact .faults (.badOperand (by simp [Instr.regOperands]) hb)
  · rw [regOperand_bad ha] at h
    cases h
    exact .faults (.badOperand (by simp [Instr.regOperands]) ha)

theorem effect_of_ldi {ra imm : Byte} (h : execLdi ra imm s = .next t) : Effect s (.ldi ra imm) t := by
  unfold execLdi at h
  rcases operand_cases ra with ha | ha
  · rw [regOperand_ok ha] at h
    cases h
    exact .setsRegister (i := .ldi ra imm) _ _ (by simp [Instr.opcode, opPcw]) rfl (by rw [ofNat_toNat_ix]; rfl)
  · rw [regOperand_bad ha] at h
    cases h
    exact .faults (.badOperand (by simp [Instr.regOperands]) ha)

theorem effect_of_ld {ra rb : Byte} (h : execLd ra rb s = .next t) : Effect s (.ld ra rb) t := by
  unfold execLd at h
  rcases operand_cases ra with ha | ha
  · rcases operand_cases rb with hb | hb
    · rw [regOperand_ok ha, regOperand_ok hb] at h
      cases h
      exact .setsRegister (i := .ld ra rb) _ _ (by simp [Instr.opcode, opPcw]) rfl (by rw [ofNat_toNat_ix]; rfl)
    · rw [regOperand_ok ha, regOperand_bad hb] at h
      cases h
      exact .faults (.badOperand (by simp [Instr.regOperands]) hb)
  · rw [regOperand_bad ha] at h
    cases h
    exact .faults (.badOperand (by simp [Instr.regOperands]) ha)

theorem effect_of_prn {ra : Byte} (h : execPrn ra s = .next t) : Effect s (.prn ra) t := by
  unfold execPrn at h
  rcases operand_cases ra with ha | ha
  · rw [regOperand_ok ha] at h
    cases h
    exact .emits ra ⟨ra.toNat, ha⟩ rfl
  · rw [regOperand_bad ha] at h
    cases h
    exact .faults (.badOperand (by simp [Instr.regOperands]) ha)

theorem effect_of_push {ra : Byte} (h : execPush ra s = .next t) : Effect s (.push ra) t := by
  unfold execPush at h
  rcases operand_cases ra with ha | ha
  · rw [regOperand_ok ha] at h
    rcases memWrite_cases s.decSP s.decSP.SP (s.decSP.reg ⟨ra.toNat, ha⟩) with ⟨hs, e⟩ | ⟨hs, hv, hw, e⟩ | ⟨hs, hv, e⟩
    all_goals
      simp only [bind, Except.bind, State.storeAtSP, e] at h
      cases h
    · exact .faults (.storeOutOfBounds (.inl rfl) hs)
    · exact .faults (.storeTooWide (a := ⟨ra.toNat, ha⟩) rfl (.inl ⟨rfl, rfl⟩) hs hv hw)
    · exact .pushes ra ⟨ra.toNat, ha⟩ rfl hs hv
  · rw [regOperand_bad ha] at h
    cases h
    exact .faults (.badOperand (by simp [Instr.regOperands]) ha)

theorem effect_of_pop {ra : Byte} (h : execPop ra s = .next t) : Effect s (.pop ra) t := by
  unfold execPop at h
  rcases operand_cases ra with ha | ha
  · rw [regOperand_ok ha] at h
    rcases Nat.lt_or_ge s.SP memSize with hs | hs
    · rw [loadAtSP_ok hs] at h
      cases h
      exact .pops ra ⟨ra.toNat, ha⟩ rfl hs
    · rw [loadAtSP_bad hs] at h
      cases h
      exact .faults (.underflow (.inl ⟨ra, ha, rfl⟩) hs)
  · rw [regOperand_bad ha] at h
    cases h
    exact .faults (.badOperand (by simp [Instr.regOperands]) ha)

theorem effect_of_call {ra : Byte} (h : execCall ra s = .next t) : Effect s (.call ra) t := by
  unfold execCall at h
  rcases operand_cases ra with ha | ha
  · rw [regOperand_ok ha] at h
    rcases memWrite_cases s.decSP s.decSP.SP (s.pc + 2) with ⟨hs, e⟩ | ⟨hs, hv, hw, e⟩ | ⟨hs, hv, e⟩
    all_goals
      simp only [bind, Except.bind, State.storeAtSP, e] at h
      cases h
    · exact .faults (.storeOutOfBounds (.inr rfl) hs)
    · exact .faults (.storeTooWide (a := ⟨ra.toNat, ha⟩) rfl (.inr ⟨rfl, rfl⟩) hs hv hw)
    · exact .calls ra ⟨ra.toNat, ha⟩ rfl hs hv
  · rw [regOperand_bad ha] at h
    cases h
    exact .faults (.badOperand (by simp [Instr.regOperands]) ha)

theorem effect_of_ret (h : execRet s = .next t) : Effect s .ret t := by
  unfold execRet at h
  rcases Nat.lt_or_ge s.SP memSize with hs | hs
  · rw [loadAtSP_ok hs] at h
    cases h
    exact .returns hs
  · rw [loadAtSP_bad hs] at h
    cases h
    exact .faults (.underflow (.inr rfl) hs)

end single

/-- Everything that `exec` can answer as a next state. -/
theorem exec_effect {i : Instr} {s t : State} (h : exec i s = .next t) : Effect s i t := by
  cases i with
  | add ra rb => exact effect_of_binary rfl (by simp [Instr.opcode, opPcw]) rfl rfl h
  | sub ra rb => exact effect_of_binary rfl (by simp [Instr.opcode, opPcw]) rfl rfl h
  | mult ra rb => exact effect_of_binary rfl (by simp [Instr.opcode, opPcw]) rfl rfl h
  | div ra rb => exact effect_of_divide rfl (by simp [Instr.opcode, opPcw]) rfl rfl (.inl rfl) h
  | mod ra rb => exact effect_of_divide rfl (by simp [Instr.opcode, opPcw]) rfl rfl (.inr rfl) h
  | inc ra => exact effect_of_unary rfl (by simp [Instr.opcode, opPcw]) rfl rfl h
  | dec ra => exact effect_of_unary rfl (by simp [Instr.opcode, opPcw]) rfl rfl h
  | cmp ra rb => exact effect_of_cmp h
  | and ra rb => exact effect_of_binary rfl (by simp [Instr.opcode, opPcw]) rfl rfl h
  | not ra => exact effect_of_unary rfl (by simp [Instr.opcode, opPcw]) rfl rfl h
  | or ra rb => exact effect_of_binary rfl (by simp [Instr.opcode, opPcw]) rfl rfl h
  | xor ra rb => exact effect_of_binary rfl (by simp [Instr.opcode, opPcw]) rfl rfl h
  | shl ra rb => exact effect_of_binary rfl (by simp [Instr.opcode, opPcw]) rfl rfl h
  | shr ra rb => exact effect_of_binary rfl (by simp [Instr.opcode, opPcw]) rfl rfl h
  | hlt =>
    cases h
    exact .halts
  | ldi ra imm => exact effect_of_ldi h
  | ld ra rb => exact effect_of_ld h
  | prn ra => exact effect_of_prn h
  | push ra => exact effect_of_push h
  | pop ra => exact effect_of_pop h
  | call ra => exact effect_of_call h
  | ret => exact effect_of_ret h
  | jmp ra => exact effect_of_jump (by simp [Instr.opcode, opPcw]) rfl (by simp) h
  | jeq ra => exact effect_of_jump (by simp [Instr.opcode, opPcw]) rfl (by simp) h
  | jne ra => exact effect_of_jump (by simp [Instr.opcode, opPcw]) rfl (by simp) h
  | jgt ra => exact effect_of_jump (by simp [Instr.opcode, opPcw]) rfl (by simp) h
  | jlt ra => exact effect_of_jump (by simp [Instr.opcode, opPcw]) rfl (by simp) h
  | jle ra => exact effect_of_jump (by simp [Instr.opcode, opPcw]) rfl (by simp) h
  | jge ra => exact effect_of_jump (by simp [Instr.opcode, opPcw]) rfl (by simp) h

end Sys2Proof.Machine
end

