-- ==== Sys2Proof/Laws/PerInstr.lean ====
section
/-!
SUPPORT. The family FormatShape, one lemma per instruction: the operand bytes are as many as the format says, and the
register operands come first among them (30_encoding.md R61, R63).
-/

/-- As many operand bytes as the format has, the register operands first. -/
def Sys2Proof.Laws.FormatShape.Statement (i : Sys2Proof.Instr) : Prop :=
  i.operandBytes.length = i.format.operands ∧ i.regOperands <+: i.operandBytes

namespace Sys2Proof.Laws.FormatShape

theorem add (ra rb : Byte) : Statement (.add ra rb) := ⟨rfl, List.prefix_rfl⟩
theorem sub (ra rb : Byte) : Statement (.sub ra rb) := ⟨rfl, List.prefix_rfl⟩
theorem mult (ra rb : Byte) : Statement (.mult ra rb) := ⟨rfl, List.prefix_rfl⟩
theorem div (ra rb : Byte) : Statement (.div ra rb) := ⟨rfl, List.prefix_rfl⟩
theorem mod (ra rb : Byte) : Statement (.mod ra rb) := ⟨rfl, List.prefix_rfl⟩
theorem inc (ra : Byte) : Statement (.inc ra) := ⟨rfl, List.prefix_rfl⟩
theorem dec (ra : Byte) : Statement (.dec ra) := ⟨rfl, List.prefix_rfl⟩
theorem cmp (ra rb : Byte) : Statement (.cmp ra rb) := ⟨rfl, List.prefix_rfl⟩
theorem and (ra rb : Byte) : Statement (.and ra rb) := ⟨rfl, List.prefix_rfl⟩
theorem not (ra : Byte) : Statement (.not ra) := ⟨rfl, List.prefix_rfl⟩
theorem or (ra rb : Byte) : Statement (.or ra rb) := ⟨rfl, List.prefix_rfl⟩
theorem xor (ra rb : Byte) : Statement (.xor ra rb) := ⟨rfl, List.prefix_rfl⟩
theorem shl (ra rb : Byte) : Statement (.shl ra rb) := ⟨rfl, List.prefix_rfl⟩
theorem shr (ra rb : Byte) : Statement (.shr ra rb) := ⟨rfl, List.prefix_rfl⟩
theorem hlt : Statement .hlt := ⟨rfl, List.prefix_rfl⟩
theorem ldi (ra imm : Byte) : Statement (.ldi ra imm) := ⟨rfl, ⟨[imm], rfl⟩⟩
theorem ld (ra rb : Byte) : Statement (.ld ra rb) := ⟨rfl, List.prefix_rfl⟩
theorem prn (ra : Byte) : Statement (.prn ra) := ⟨rfl, List.prefix_rfl⟩
theorem push (ra : Byte) : Statement (.push ra) := ⟨rfl, List.prefix_rfl⟩
theorem pop (ra : Byte) : Statement (.pop ra) := ⟨rfl, List.prefix_rfl⟩
theorem call (ra : Byte) : Statement (.call ra) := ⟨rfl, List.prefix_rfl⟩
theorem ret : Statement .ret := ⟨rfl, List.prefix_rfl⟩
theorem jmp (ra : Byte) : Statement (.jmp ra) := ⟨rfl, List.prefix_rfl⟩
theorem jeq (ra : Byte) : Statement (.jeq ra) := ⟨rfl, List.prefix_rfl⟩
theorem jne (ra : Byte) : Statement (.jne ra) := ⟨rfl, List.prefix_rfl⟩
theorem jgt (ra : Byte) : Statement (.jgt ra) := ⟨rfl, List.prefix_rfl⟩
theorem jlt (ra : Byte) : Statement (.jlt ra) := ⟨rfl, List.prefix_rfl⟩
theorem jle (ra : Byte) : Statement (.jle ra) := ⟨rfl, List.prefix_rfl⟩
theorem jge (ra : Byte) : Statement (.jge ra) := ⟨rfl, List.prefix_rfl⟩

end Sys2Proof.Laws.FormatShape
end

