-- ==== Sys2Proof/Laws/Step.lean ====
section
/-!
SUPPORT. What the fetch answers, and what a step can do.
-/
namespace Sys2Proof.Machine

variable {s t : State}

/-- Near the top of memory the fetch raises OutOfBounds with the first address outside. -/
theorem fetchDecode_high (h : 254 ≤ s.pc) : s.fetchDecode = raise .outOfBounds (max s.pc 256) := by
  unfold State.fetchDecode
  rcases Nat.lt_or_ge s.pc 256 with h1 | h1
  · rw [memRead_ok (by unfold memSize; exact h1)]
    rcases Nat.lt_or_ge (s.pc + 1) 256 with h2 | h2
    · rw [memRead_ok (a := s.pc + 1) (by unfold memSize; exact h2),
        memRead_bad (a := s.pc + 2) (by unfold memSize; omega), show max s.pc 256 = s.pc + 2 by omega]
      rfl
    · rw [memRead_bad (a := s.pc + 1) (by unfold memSize; omega), show max s.pc 256 = s.pc + 1 by omega]
      rfl
  · rw [memRead_bad (by unfold memSize; exact h1), show max s.pc 256 = s.pc by omega]
    rfl

/-- Below that it gives the dispatcher's answer on the three bytes. -/
theorem fetchDecode_low (h : s.pc ≤ 253) :
    s.fetchDecode = (decodeInstr (s.mem.read s.pc) (s.mem.read (s.pc + 1)) (s.mem.read (s.pc + 2))).mapError
      raiseOfUndefined := by
  unfold State.fetchDecode
  rw [memRead_ok (by unfold memSize; omega), memRead_ok (a := s.pc + 1) (by unfold memSize; omega),
    memRead_ok (a := s.pc + 2) (by unfold memSize; omega)]
  rfl

theorem stopReason_eq_none : s.stopReason = none ↔ s.running = true ∧ s.fault.kind = .none := by
  unfold State.stopReason
  cases s.running <;> simp

/-- A step that answers a next state: it was enabled, and the fetch faulted, or the dispatcher rejected the byte, or the
fetched instruction ran. -/
theorem step_cases (h : step s = .next t) :
    (s.running = true ∧ s.fault.kind = .none) ∧
    ((254 ≤ s.pc ∧ t = s.enterFault { kind := .outOfBounds, info := max s.pc 256 }) ∨
      (s.pc ≤ 253 ∧
        ((∃ u, decodeInstr (s.mem.read s.pc) (s.mem.read (s.pc + 1)) (s.mem.read (s.pc + 2)) = .error u ∧
            t = s.enterFault (raiseOfUndefined u)) ∨
          ∃ i, decodeInstr (s.mem.read s.pc) (s.mem.read (s.pc + 1)) (s.mem.read (s.pc + 2)) = .ok i ∧
            exec i s = .next t))) := by
  unfold step at h
  split at h
  · cases h
  · next hs =>
    refine ⟨stopReason_eq_none.1 hs, ?_⟩
    rcases Nat.lt_or_ge 253 s.pc with hp | hp
    · rw [fetchDecode_high hp] at h
      cases h
      exact .inl ⟨hp, rfl⟩
    · rw [fetchDecode_low hp] at h
      refine .inr ⟨hp, ?_⟩
      cases hd : decodeInstr (s.mem.read s.pc) (s.mem.read (s.pc + 1)) (s.mem.read (s.pc + 2)) with
      | error u =>
        rw [hd] at h
        cases h
        exact .inl ⟨u, rfl, rfl⟩
      | ok i =>
        rw [hd] at h
        exact .inr ⟨i, rfl, h⟩

end Sys2Proof.Machine
end

