-- ==== Sys2Proof/Tests/Slice0.lean ====
section
/-!
SUPPORT. The model's own tests. Expected results come from spec/95_test_vectors.md, by the vector's name, or from the table of
spec/30_encoding.md R70. The theorems named witness_<Name> give concrete data that meets every hypothesis of
Obligations.<Name>, clause by clause where it has several.
-/

open Sys2Proof Sys2Proof.Machine Sys2Proof.Claims

namespace Sys2Proof.Tests

/-! ### Helpers -/

/-- The next state of an outcome. -/
def nextOf : Host.Outcome State Fault Refusal → Option State
  | .next t => some t
  | .fault _ => none
  | .refused _ => none

/-- A machine of width `8 + extra` with these registers, program counter and flags, and these bytes at `pc`. -/
def machine (extra : Nat) (wide : WideStore) (x : Vector Nat 8) (pc : Nat) (fl : Flags) (bytes : List Byte) : State :=
  { State.reset with params := { extraBits := extra, wideStore := wide }, x := x, pc := pc, fl := fl }.placeBytes pc bytes

def noFlags : Flags := { E := false, G := false, L := false }
def flagE : Flags := { E := true, G := false, L := false }
def flagG : Flags := { E := false, G := true, L := false }
def flagL : Flags := { E := false, G := false, L := true }

/-- `x0`, `x1` and SP in an 8-bit machine. -/
def m8 (x0 x1 sp pc : Nat) (bytes : List Byte) : State :=
  machine 0 .fault #v[x0, x1, 0, 12, 0, 0, 0, sp] pc noFlags bytes

/-- `x0`, `x1` and SP in a 16-bit machine. -/
def m16 (wide : WideStore) (x0 x1 sp pc : Nat) (bytes : List Byte) : State :=
  machine 8 wide #v[x0, x1, 0, 300, 0, 0, 0, sp] pc noFlags bytes

/-- A conditional jump at 20 through `x3 = 12` (vectors J8 to J21). -/
def atJump (fl : Flags) (bytes : List Byte) : State := machine 0 .fault #v[0, 0, 0, 12, 0, 0, 0, 0xF4] 20 fl bytes

/-- What one step leaves, seen through `f`. -/
def afterStep {α : Type} (s : State) (f : State → α) : Option α := (nextOf (step s)).map f

/-! ### Well-formedness refuses each ill-formed operand -/

theorem test_operand_a_of_8_is_ill_formed : (Instr.add 8 0).wellFormed = false := by decide
theorem test_operand_b_of_8_is_ill_formed : (Instr.add 7 8).wellFormed = false := by decide
theorem test_single_operand_of_255_is_ill_formed : (Instr.jeq 255).wellFormed = false := by decide
theorem test_ldi_register_of_8_is_ill_formed : (Instr.ldi 8 0).wellFormed = false := by decide
theorem test_ldi_immediate_is_no_register : (Instr.ldi 7 255).wellFormed = true := by decide
theorem test_largest_registers_are_well_formed : (Instr.cmp 7 7).wellFormed = true := by decide

/-! ### Decoding: one word per row of R70, written from its binary column -/

theorem test_decode_add : decode [0b10100000, 3, 5, 9] = .ok (.add 3 5, [9]) := by decide
theorem test_decode_sub : decode [0b10100001, 3, 5, 9] = .ok (.sub 3 5, [9]) := by decide
theorem test_decode_mult : decode [0b10100010, 3, 5, 9] = .ok (.mult 3 5, [9]) := by decide
theorem test_decode_div : decode [0b10100011, 3, 5, 9] = .ok (.div 3 5, [9]) := by decide
theorem test_decode_mod : decode [0b10100100, 3, 5, 9] = .ok (.mod 3 5, [9]) := by decide
theorem test_decode_inc : decode [0b01100101, 3, 9] = .ok (.inc 3, [9]) := by decide
theorem test_decode_dec : decode [0b01100110, 3, 9] = .ok (.dec 3, [9]) := by decide
theorem test_decode_cmp : decode [0b10100111, 3, 5, 9] = .ok (.cmp 3 5, [9]) := by decide
theorem test_decode_and : decode [0b10101000, 3, 5, 9] = .ok (.and 3 5, [9]) := by decide
theorem test_decode_not : decode [0b01101001, 3, 9] = .ok (.not 3, [9]) := by decide
theorem test_decode_or : decode [0b10101010, 3, 5, 9] = .ok (.or 3 5, [9]) := by decide
theorem test_decode_xor : decode [0b10101011, 3, 5, 9] = .ok (.xor 3 5, [9]) := by decide
theorem test_decode_shl : decode [0b10101100, 3, 5, 9] = .ok (.shl 3 5, [9]) := by decide
theorem test_decode_shr : decode [0b10101101, 3, 5, 9] = .ok (.shr 3 5, [9]) := by decide
theorem test_decode_hlt : decode [0b00000001, 9] = .ok (.hlt, [9]) := by decide
theorem test_decode_ldi : decode [0b10000010, 3, 5, 9] = .ok (.ldi 3 5, [9]) := by decide
theorem test_decode_ld : decode [0b10000011, 3, 5, 9] = .ok (.ld 3 5, [9]) := by decide
theorem test_decode_prn : decode [0b01000111, 3, 9] = .ok (.prn 3, [9]) := by decide
theorem test_decode_push : decode [0b01000101, 3, 9] = .ok (.push 3, [9]) := by decide
theorem test_decode_pop : decode [0b01000110, 3, 9] = .ok (.pop 3, [9]) := by decide
theorem test_decode_call : decode [0b01010000, 3, 9] = .ok (.call 3, [9]) := by decide
theorem test_decode_ret : decode [0b00010001, 9] = .ok (.ret, [9]) := by decide
theorem test_decode_jmp : decode [0b01010100, 3, 9] = .ok (.jmp 3, [9]) := by decide
theorem test_decode_jeq : decode [0b01010101, 3, 9] = .ok (.jeq 3, [9]) := by decide
theorem test_decode_jne : decode [0b01010110, 3, 9] = .ok (.jne 3, [9]) := by decide
theorem test_decode_jgt : decode [0b01010111, 3, 9] = .ok (.jgt 3, [9]) := by decide
theorem test_decode_jlt : decode [0b01011000, 3, 9] = .ok (.jlt 3, [9]) := by decide
theorem test_decode_jle : decode [0b01011001, 3, 9] = .ok (.jle 3, [9]) := by decide
theorem test_decode_jge : decode [0b01011010, 3, 9] = .ok (.jge 3, [9]) := by decide

/-! ### Undefined bytes (X1 to X5) and short byte lists -/

theorem test_decode_undefined_alu_byte :
    decode [0b10100101, 0, 0] = .error (.undefinedOpcode (.unsupportedOperation 0xA5)) := by decide
theorem test_decode_zero_byte :
    decode [0b00000000, 0, 0] = .error (.undefinedOpcode (.unrecognizedInstruction 0x00)) := by decide
theorem test_decode_count_three_alu :
    decode [0b11100000, 0, 0] = .error (.undefinedOpcode (.unsupportedOperation 0xE0)) := by decide
theorem test_decode_short_list : decode [0b10100000, 1] = .error .incomplete := by decide
theorem test_table_word : decodeTableWord 8 0xA0 = some (.add 0 0) := by decide
theorem test_table_word_drops_bits_above : decodeTableWord 8 0x0301A0 = some (.add 0 0) := by decide
theorem test_table_word_byte_order : decodeTableWord 24 0x0201A0 = some (.add 1 2) := by decide
theorem test_opcode_fields : (opCount 0xA7, opAlu 0xA7, opPcw 0xA7, opId 0xA7) = (2, true, false, 7) := by decide

/-! ### One step per vector of spec/95_test_vectors.md -/

theorem test_add_A1 : afterStep (m8 200 100 0xF4 0 [0xA0, 0, 1]) (fun t => (t.reg 0, t.pc)) = some (44, 3) := by decide
theorem test_add_A2 :
    afterStep (m16 .fault 200 100 0xF4 0 [0xA0, 0, 1]) (fun t => (t.reg 0, t.pc)) = some (300, 3) := by decide
theorem test_sub_A3 : afterStep (m8 3 5 0xF4 0 [0xA1, 0, 1]) (fun t => (t.reg 0, t.pc)) = some (254, 3) := by decide
theorem test_sub_A4 :
    afterStep (m16 .fault 3 5 0xF4 0 [0xA1, 0, 1]) (fun t => (t.reg 0, t.pc)) = some (65534, 3) := by decide
theorem test_mult_A5 : afterStep (m8 16 16 0xF4 0 [0xA2, 0, 1]) (fun t => (t.reg 0, t.pc)) = some (0, 3) := by decide
theorem test_mult_A7 : afterStep (m8 15 17 0xF4 0 [0xA2, 0, 1]) (fun t => (t.reg 0, t.pc)) = some (255, 3) := by decide
theorem test_div_A9 : afterStep (m8 7 2 0xF4 0 [0xA3, 0, 1]) (fun t => (t.reg 0, t.pc)) = some (3, 3) := by decide
theorem test_div_A10 :
    afterStep (m8 7 0 0xF4 0 [0xA3, 0, 1]) (fun t => (t.fault, t.reg 0, t.pc)) = some (⟨.divisionByZero, 0, 1⟩, 7, 0) := by
  decide
theorem test_mod_A12 : afterStep (m8 7 2 0xF4 0 [0xA4, 0, 1]) (fun t => (t.reg 0, t.pc)) = some (1, 3) := by decide
theorem test_mod_A13 :
    afterStep (m8 7 0 0xF4 0 [0xA4, 0, 1]) (fun t => (t.fault, t.reg 0)) = some (⟨.divisionByZero, 0, 1⟩, 7) := by decide
theorem test_inc_A14 : afterStep (m8 255 0 0xF4 0 [0x65, 0]) (fun t => (t.reg 0, t.pc)) = some (0, 2) := by decide
theorem test_inc_A16 :
    afterStep (m8 1 0 0xF4 0 [0x65, 0, 0xFF]) (fun t => (t.reg 0, t.pc, t.fault.kind)) = some (2, 2, .none) := by decide
theorem test_dec_A17 : afterStep (m8 0 0 0xF4 0 [0x66, 0]) (fun t => (t.reg 0, t.pc)) = some (255, 2) := by decide
theorem test_dec_A18 :
    afterStep (m16 .fault 0 0 0xF4 0 [0x66, 0]) (fun t => (t.reg 0, t.pc)) = some (65535, 2) := by decide
theorem test_cmp_A32 : afterStep (m8 0xFF 1 0xF4 0 [0xA7, 0, 1]) (fun t => (t.fl, t.pc)) = some (flagG, 3) := by decide
theorem test_cmp_A33 : afterStep (m8 0 0 0xF4 0 [0xA7, 3, 3]) (fun t => (t.fl, t.pc)) = some (flagE, 3) := by decide
theorem test_and_A19 :
    afterStep (m8 0xCC 0xAA 0xF4 0 [0xA8, 0, 1]) (fun t => (t.reg 0, t.pc)) = some (0x88, 3) := by decide
theorem test_not_A23 : afterStep (m8 0x0F 0 0xF4 0 [0x69, 0]) (fun t => (t.reg 0, t.pc)) = some (0xF0, 2) := by decide
theorem test_not_A24 :
    afterStep (m16 .fault 0x0F 0 0xF4 0 [0x69, 0]) (fun t => (t.reg 0, t.pc)) = some (0xFFF0, 2) := by decide
theorem test_or_A20 :
    afterStep (m8 0xCC 0xAA 0xF4 0 [0xAA, 0, 1]) (fun t => (t.reg 0, t.pc)) = some (0xEE, 3) := by decide
theorem test_xor_A21 :
    afterStep (m8 0xCC 0xAA 0xF4 0 [0xAB, 0, 1]) (fun t => (t.reg 0, t.pc)) = some (0x66, 3) := by decide
theorem test_shl_A25 : afterStep (m8 0x81 1 0xF4 0 [0xAC, 0, 1]) (fun t => (t.reg 0, t.pc)) = some (2, 3) := by decide
theorem test_shl_A26 : afterStep (m8 1 8 0xF4 0 [0xAC, 0, 1]) (fun t => (t.reg 0, t.pc)) = some (0, 3) := by decide
theorem test_shr_A29 : afterStep (m8 0x80 7 0xF4 0 [0xAD, 0, 1]) (fun t => (t.reg 0, t.pc)) = some (1, 3) := by decide
theorem test_shr_A30 : afterStep (m8 0xFF 9 0xF4 0 [0xAD, 0, 1]) (fun t => (t.reg 0, t.pc)) = some (0, 3) := by decide
theorem test_hlt_L1 :
    afterStep (m8 0 0 0xF4 253 [0x01]) (fun t => (t.running, t.pc, t.fault.kind)) = some (false, 254, .none) := by decide
theorem test_ldi_L2 : afterStep (m8 0 0 0xF4 0 [0x82, 0, 0xFF]) (fun t => (t.reg 0, t.pc)) = some (255, 3) := by decide
theorem test_ldi_L4 :
    afterStep (m8 0 0 0xF4 0 [0x82, 8, 5]) (fun t => (t.fault, t.pc)) = some (⟨.outOfBounds, 0, 8⟩, 0) := by decide
theorem test_ld_L5 : afterStep (m8 15 0 0xF4 0 [0x83, 2, 0]) (fun t => (t.reg 2, t.pc)) = some (15, 3) := by decide
theorem test_prn_L7 :
    afterStep (m16 .fault 300 0 0xF4 0 [0x47, 0]) (fun t => (t.output, t.pc)) = some ([300], 2) := by decide
theorem test_prn_L8 :
    afterStep (m8 0 0 0xF4 0 [0x47, 8]) (fun t => (t.fault, t.output)) = some (⟨.outOfBounds, 0, 8⟩, []) := by decide
theorem test_push_T2 :
    afterStep (m8 7 0 0xF4 0 [0x45, 7]) (fun t => (t.SP, t.mem.read 0xF3, t.pc)) = some (0xF3, 0xF3, 2) := by decide
theorem test_push_T10 :
    afterStep (m16 .fault 0x1234 0 0xF4 0 [0x45, 0]) (fun t => (t.fault, t.SP)) = some (⟨.valueTooWide, 0, 0xF3⟩, 0xF4) := by
  decide
theorem test_pop_T6 : afterStep (m8 0 0 1 0 [0x46, 7]) (fun t => (t.SP, t.pc)) = some (8, 2) := by decide
theorem test_pop_T8 :
    afterStep (m16 .fault 0 0 0x100 0 [0x46, 0]) (fun t => t.fault) = some ⟨.stackUnderflow, 0, 0x100⟩ := by decide
theorem test_call_J2 :
    afterStep (m8 12 0 0xF4 6 [0x50, 7]) (fun t => (t.SP, t.mem.read 0xF3, t.pc)) = some (0xF3, 8, 0xF3) := by decide
theorem test_call_J4 :
    afterStep (m16 .fault 12 0 0 6 [0x50, 0]) (fun t => (t.fault, t.SP, t.pc)) = some (⟨.outOfBounds, 6, 0xFFFF⟩, 0, 6) := by
  decide
theorem test_ret_J3 :
    afterStep ((m8 0 0 0xF3 0 [0x11]).placeBytes 0xF3 [8]) (fun t => (t.pc, t.SP)) = some (8, 0xF4) := by decide
theorem test_ret_J5 :
    afterStep (m16 .fault 0 0 0x100 0 [0x11]) (fun t => t.fault) = some ⟨.stackUnderflow, 0, 0x100⟩ := by decide
theorem test_jmp_J6 : afterStep (m8 0 0 0xF4 0 [0x54, 3]) (fun t => t.pc) = some 12 := by decide
theorem test_jmp_J7 : afterStep (m8 0 0 0xF4 0 [0x54, 8]) (fun t => t.fault) = some ⟨.outOfBounds, 0, 8⟩ := by decide
theorem test_jeq_J8 : afterStep (atJump flagE [0x55, 3]) (fun t => t.pc) = some 12 := by decide
theorem test_jeq_J9 : afterStep (atJump flagG [0x55, 3]) (fun t => t.pc) = some 22 := by decide
theorem test_jne_J10 : afterStep (atJump flagL [0x56, 3]) (fun t => t.pc) = some 12 := by decide
theorem test_jne_J11 : afterStep (atJump flagE [0x56, 3]) (fun t => t.pc) = some 22 := by decide
theorem test_jgt_J12 : afterStep (atJump flagG [0x57, 3]) (fun t => t.pc) = some 12 := by decide
theorem test_jgt_J13 : afterStep (atJump flagE [0x57, 3]) (fun t => t.pc) = some 22 := by decide
theorem test_jlt_J14 : afterStep (atJump flagL [0x58, 3]) (fun t => t.pc) = some 12 := by decide
theorem test_jlt_J15 : afterStep (atJump flagG [0x58, 3]) (fun t => t.pc) = some 22 := by decide
theorem test_jle_J16 : afterStep (atJump flagE [0x59, 3]) (fun t => t.pc) = some 12 := by decide
theorem test_jle_J18 : afterStep (atJump flagG [0x59, 3]) (fun t => t.pc) = some 22 := by decide
theorem test_jge_J19 : afterStep (atJump flagE [0x5A, 3]) (fun t => t.pc) = some 12 := by decide
theorem test_jge_J21 : afterStep (atJump flagL [0x5A, 3]) (fun t => t.pc) = some 22 := by decide

/-! ### Fetch, decode order and stops (J22, X3, X6 to X8, X10, X11) -/

theorem test_untaken_jump_checks_its_operand_J22 :
    afterStep (atJump noFlags [0x55, 8]) (fun t => t.fault) = some ⟨.outOfBounds, 20, 8⟩ := by decide
theorem test_count_three_X3 :
    afterStep (m8 0 0 0xF4 0 [0xC0]) (fun t => t.fault) = some ⟨.unrecognizedInstruction, 0, 0xC0⟩ := by decide
theorem test_opcode_before_operands_X6 :
    afterStep (m8 0 0 0xF4 0 [0xA5, 9, 9]) (fun t => t.fault) = some ⟨.unsupportedOperation, 0, 0xA5⟩ := by decide
theorem test_fetch_at_254_X7 :
    afterStep (m8 0 0 0xF4 254 [0x01]) (fun t => (t.fault, t.running)) = some (⟨.outOfBounds, 254, 256⟩, true) := by decide
theorem test_fetch_at_255_X8 :
    afterStep (m8 0 0 0xF4 255 [0x01]) (fun t => t.fault) = some ⟨.outOfBounds, 255, 256⟩ := by decide
theorem test_no_step_when_faulted_X10 :
    step { State.reset with fault := ⟨.outOfBounds, 0, 8⟩ } = .fault .faulted := rfl
theorem test_no_step_when_halted_X11 : step { State.reset with running := false } = .fault .halted := rfl
theorem test_table_word_runs_after_reset :
    afterStep (State.reset.withFetchWord 8 0x01) (fun t => (t.running, t.pc)) = some (false, 1) := by decide
theorem test_core_steps_like_step : core.step core.reset = step State.reset := rfl

/-! ### Witnesses: encoding and the step -/

theorem witness_UndefinedBytesAreRejectedByBitFive :
    ((∀ i : Instr, i.opcode ≠ 0xA5) ∧ (0xA5 : Byte).getLsbD 5 = true) ∧
      ((∀ i : Instr, i.opcode ≠ 0xC0) ∧ (0xC0 : Byte).getLsbD 5 = false) := by
  refine ⟨⟨fun i => ?_, by decide⟩, ⟨fun i => ?_, by decide⟩⟩ <;> cases i <;> simp [Instr.opcode]

theorem witness_ExtraOperandBytesAreIgnored :
    (decodeInstr 0x01 9 9 = .ok .hlt ∧ opCount 0x01 = 0) ∧ (decodeInstr 0x65 0 0xFF = .ok (.inc 0) ∧ opCount 0x65 = 1) := by
  decide

/-- `ADD r0,r1` at an address. -/
def addAt (pc : Nat) : State := m8 200 100 0xF4 pc [0xA0, 0, 1]

theorem witness_StepRunsTheFetchedInstruction :
    (Enabled (addAt 0) ∧ (addAt 0).pc ≤ 253 ∧ dispatched (addAt 0) = .ok (.add 0 1)) ∧
      (Enabled (addAt 253) ∧ (addAt 253).pc ≤ 253 ∧ dispatched (addAt 253) = .ok (.add 0 1)) := by
  unfold Enabled dispatched
  decide

theorem witness_StepRunsTheEncodedInstruction :
    Enabled (addAt 253) ∧ (addAt 253).pc ≤ 253 ∧
      ∀ (k : Nat) (h : k < (encode (.add 0 1)).length), (addAt 253).mem.read ((addAt 253).pc + k) = (encode (.add 0 1))[k] := by
  unfold Enabled
  decide

theorem witness_FetchAt254OrAboveFaults :
    (Enabled (addAt 254) ∧ 254 ≤ (addAt 254).pc) ∧ (Enabled (addAt 256) ∧ 254 ≤ (addAt 256).pc) := by
  unfold Enabled
  decide

theorem witness_UndefinedOpcodeStepTakesItsFault :
    Enabled (m8 0 0 0xF4 253 [0xA5]) ∧ (m8 0 0 0xF4 253 [0xA5]).pc ≤ 253 ∧
      ∀ i : Instr, i.opcode ≠ (m8 0 0 0xF4 253 [0xA5]).mem.read (m8 0 0 0xF4 253 [0xA5]).pc := by
  refine ⟨⟨rfl, rfl⟩, by decide, fun i => ?_⟩
  rw [show (m8 0 0 0xF4 253 [0xA5]).mem.read (m8 0 0 0xF4 253 [0xA5]).pc = 0xA5 by decide]
  cases i <;> simp [Instr.opcode]

/-- Stopped states: by HLT, and by a fault. -/
def haltedState : State := { State.reset with running := false, pc := 1 }
def faultedState : State := { State.reset with fault := ⟨.outOfBounds, 0, 8⟩ }

theorem witness_StoppedEngineTakesNoStep :
    haltedState.running = false ∧ (faultedState.running = true ∧ faultedState.fault.kind ≠ .none) := by decide

theorem witness_StepKeepsTheStateWellFormed : ∃ t, step (addAt 0) = .next t ∧ (addAt 0).Wf :=
  ⟨_, rfl, by decide⟩

theorem witness_StepKeepsTheStopCoherent : ∃ t, step (addAt 254) = .next t ∧ (addAt 254).StopCoherent :=
  ⟨_, rfl, by decide⟩

theorem witness_ResetStatesMeetTheInvariants :
    Launch.wf { params := { extraBits := 8, wideStore := .truncate }, regInit := #v[65535, 1, 2, 3, 4, 5, 6], flInit := flagG } := by
  decide

theorem witness_BootPlacesTheImageFromAddressZero :
    (List.replicate 256 (1 : Byte)).length ≤ 256 ∧ 255 < (List.replicate 256 (1 : Byte)).length ∧
      ([] : List Byte).length ≤ 0 := by
  rw [List.length_replicate]
  decide

theorem witness_LoadWriteIsBoundsChecked : State.reset.mem.wf ∧ (addAt 0).mem.wf ∧ 255 < 256 ∧ 256 ≤ 256 := by decide

theorem witness_TracePortShowsUpToThreeBytes :
    (addAt 253).pc ≤ 253 ∧ (addAt 254).pc = 254 ∧ (addAt 255).pc = 255 ∧ 256 ≤ (addAt 256).pc := by decide

theorem witness_StatusOutputsTellTheStopsApart :
    (haltedState.StopCoherent ∧ ¬Enabled haltedState) ∧ (faultedState.StopCoherent ∧ ¬Enabled faultedState) := by
  unfold Enabled
  decide

/-! ### Witnesses: whole-machine rules -/

theorem witness_FaultsAreAllOrNothing : ∃ t, step (m8 7 0 0xF4 0 [0xA3, 0, 1]) = .next t ∧ t.fault.kind ≠ .none :=
  ⟨_, rfl, by decide⟩

theorem witness_FirstBadRegisterOperandFaults :
    (Instr.add 9 8).regOperands.find? (fun w => !namesRegister w) = some 9 ∧
      (Instr.cmp 7 255).regOperands.find? (fun w => !namesRegister w) = some 255 ∧
      (Instr.jeq 8).regOperands.find? (fun w => !namesRegister w) = some 8 := by decide

theorem witness_OutOfBoundsComesFromFetchOperandOrStore :
    (∃ t, step (addAt 254) = .next t ∧ (addAt 254).RegsInRange ∧ t.fault.kind = .outOfBounds) ∧
      (∃ t, step (m8 0 0 0xF4 253 [0x47, 8]) = .next t ∧ (m8 0 0 0xF4 253 [0x47, 8]).RegsInRange ∧
        t.fault.kind = .outOfBounds) ∧
      ∃ t, step (m16 .fault 0 0 257 0 [0x45, 0]) = .next t ∧ (m16 .fault 0 0 257 0 [0x45, 0]).RegsInRange ∧
        t.fault.kind = .outOfBounds :=
  ⟨⟨_, rfl, by decide⟩, ⟨_, rfl, by decide⟩, ⟨_, rfl, by decide⟩⟩

theorem witness_DivisionByZeroComesFromDivAndModAlone :
    ∃ t, exec (.mod 0 1) (m8 7 0 0xF4 0 []) = .next t ∧ (m8 7 0 0xF4 0 []).fault.kind = .none ∧
      t.fault.kind = .divisionByZero := ⟨_, rfl, by decide⟩

theorem witness_StackUnderflowComesFromPopAndRetAlone :
    ∃ t, exec (.pop 7) (m16 .fault 0 0 256 0 []) = .next t ∧ (m16 .fault 0 0 256 0 []).fault.kind = .none ∧
      t.fault.kind = .stackUnderflow := ⟨_, rfl, by decide⟩

theorem witness_NoStackFaultAtEightBits :
    ∃ t, step (m8 5 0 0 253 [0x45, 8]) = .next t ∧ (m8 5 0 0 253 [0x45, 8]).RegsInRange ∧
      (m8 5 0 0 253 [0x45, 8]).W = 8 ∧ t.fault.kind = .outOfBounds := ⟨_, rfl, by decide⟩

theorem witness_OnlyCmpWritesTheFlags :
    ∃ t, step (m8 1 2 0xF4 0 [0xA7, 0, 1]) = .next t ∧ t.fl ≠ (m8 1 2 0xF4 0 [0xA7, 0, 1]).fl := ⟨_, rfl, by decide⟩

theorem witness_OnlyHltClearsTheRunningFlag :
    (∃ t, exec .hlt (addAt 0) = .next t) ∧ ∃ t, exec (.add 0 1) (addAt 0) = .next t := ⟨⟨_, rfl⟩, ⟨_, rfl⟩⟩

theorem witness_OutputGrowsOnlyByPrn :
    ∃ t, exec (.prn 0) (addAt 0) = .next t ∧ (addAt 0).fault.kind = .none ∧ t.output = [200] := ⟨_, rfl, by decide⟩

theorem witness_OnlyPushAndCallWriteOneByte :
    ∃ t, step (m8 7 0 0xF4 0 [0x45, 0]) = .next t ∧ (m8 7 0 0xF4 0 [0x45, 0]).RegsInRange ∧
      (m8 7 0 0xF4 0 [0x45, 0]).mem.wf ∧ t.mem.read 0xF3 ≠ (m8 7 0 0xF4 0 [0x45, 0]).mem.read 0xF3 := ⟨_, rfl, by decide⟩

theorem witness_OnlyNamedRegistersAndTheStackPointerChange :
    (∃ t, exec (.add 0 1) (addAt 0) = .next t ∧ t.reg 0 ≠ (addAt 0).reg 0) ∧
      ∃ t, exec (.push 0) (addAt 0) = .next t ∧ t.reg 7 ≠ (addAt 0).reg 7 := ⟨⟨_, rfl, by decide⟩, ⟨_, rfl, by decide⟩⟩

theorem witness_SequencerAdvancesByOnePlusOperandCount :
    ∃ t, exec (.add 0 1) (addAt 253) = .next t ∧ (addAt 253).fault.kind = .none ∧ t.fault.kind = .none ∧
      opPcw (Instr.add 0 1).opcode = false ∧ (addAt 253).pc ≤ 253 := ⟨_, rfl, by decide⟩

/-! ### Witnesses: the instructions -/

/-- The hypotheses of a rule with two register operands: both good, and each bad. -/
abbrev BinaryHypotheses : Prop :=
  ((7 : Byte).toNat < 8 ∧ (0 : Byte).toNat < 8 ∧ (addAt 0).RegsInRange ∧ (m16 .fault 65535 65535 0 0 []).RegsInRange) ∧
    8 ≤ (8 : Byte).toNat ∧ ((7 : Byte).toNat < 8 ∧ 8 ≤ (255 : Byte).toNat)

/-- The hypotheses of a rule with one register operand. -/
abbrev UnaryHypotheses : Prop :=
  ((7 : Byte).toNat < 8 ∧ (addAt 0).RegsInRange ∧ (m16 .fault 65535 0 0 0 []).RegsInRange) ∧ 8 ≤ (8 : Byte).toNat

theorem binary_hypotheses : BinaryHypotheses := by decide
theorem unary_hypotheses : UnaryHypotheses := by decide

theorem witness_AddRule : BinaryHypotheses := binary_hypotheses
theorem witness_SubRule : BinaryHypotheses := binary_hypotheses
theorem witness_MultRule : BinaryHypotheses := binary_hypotheses
theorem witness_DivideAndRemainderRules :
    BinaryHypotheses ∧ (m8 7 0 0xF4 0 []).reg ⟨(1 : Byte).toNat, by decide⟩ = 0 ∧
      (m8 7 1 0xF4 0 []).reg ⟨(1 : Byte).toNat, by decide⟩ ≠ 0 := by decide
theorem witness_IncrementAndDecrementRules : UnaryHypotheses := unary_hypotheses
theorem witness_BitwiseAndRule : BinaryHypotheses := binary_hypotheses
theorem witness_BitwiseOrAndXorRules : BinaryHypotheses := binary_hypotheses
theorem witness_BitwiseNotRule : UnaryHypotheses := unary_hypotheses
theorem witness_ShiftRules : BinaryHypotheses := binary_hypotheses
theorem witness_CompareSetsExactlyOneFlag : BinaryHypotheses := binary_hypotheses
theorem witness_LoadImmediateRule : UnaryHypotheses := unary_hypotheses
theorem witness_LoadRegisterRule : BinaryHypotheses := binary_hypotheses
theorem witness_PrintRule : UnaryHypotheses := unary_hypotheses

/-- Each clause at a boundary of its range: the new SP at 256 and at 255, the value at 256 and at 255, both settings of
`WIDE_STORE`, and r7. -/
theorem witness_PushRule :
    ((m16 .fault 0 0 257 0 []).RegsInRange ∧ (m16 .fault 0 0 257 0 []).mem.wf ∧ 256 ≤ pushAddress (m16 .fault 0 0 257 0 [])) ∧
    ((m16 .fault 256 0 256 0 []).RegsInRange ∧ (m16 .fault 256 0 256 0 []).mem.wf ∧
      pushAddress (m16 .fault 256 0 256 0 []) < 256 ∧
      256 ≤ pushedValue (m16 .fault 256 0 256 0 []) ⟨(0 : Byte).toNat, by decide⟩ ∧
      (m16 .fault 256 0 256 0 []).params.wideStore = .fault) ∧
    ((m16 .fault 255 0 256 0 []).RegsInRange ∧ (m16 .fault 255 0 256 0 []).mem.wf ∧
      pushAddress (m16 .fault 255 0 256 0 []) < 256 ∧
      pushedValue (m16 .fault 255 0 256 0 []) ⟨(0 : Byte).toNat, by decide⟩ < 256) ∧
    (pushAddress (m16 .truncate 256 0 256 0 []) < 256 ∧ (m16 .truncate 256 0 256 0 []).params.wideStore = .truncate) ∧
    pushedValue (m16 .fault 255 0 256 0 []) ⟨(7 : Byte).toNat, by decide⟩ < 256 := by decide

theorem witness_PopRule :
    256 ≤ (m16 .fault 0 0 256 0 []).SP ∧ (m16 .fault 0 0 255 0 []).SP < 256 ∧ (0 : Byte).toNat < 8 ∧ (0 : Byte).toNat ≠ 7 ∧
      (7 : Byte).toNat < 8 ∧ (7 : Byte).toNat = 7 ∧ 8 ≤ (8 : Byte).toNat := by decide

theorem witness_PushThenPopRestoresTheRegisters :
    (∃ t u, exec (.push 0) (m8 255 0 0 0 []) = .next t ∧ exec (.pop 0) t = .next u ∧ (0 : Byte).toNat < 8 ∧
      (m8 255 0 0 0 []).RegsInRange ∧ (m8 255 0 0 0 []).mem.wf ∧ (m8 255 0 0 0 []).fault.kind = .none ∧
      (m8 255 0 0 0 []).reg ⟨(0 : Byte).toNat, by decide⟩ < 256 ∧ t.fault.kind = .none ∧ u.fault.kind = .none) ∧
    ∃ t u, exec (.push 7) (m8 255 0 0 0 []) = .next t ∧ exec (.pop 7) t = .next u ∧ (7 : Byte).toNat < 8 ∧
      t.fault.kind = .none ∧ u.fault.kind = .none :=
  ⟨⟨_, _, rfl, rfl, by decide⟩, ⟨_, _, rfl, rfl, by decide⟩⟩

theorem witness_RepeatedPushLowersTheStackPointer :
    State.reset.RegsInRange ∧ State.reset.SP ≤ 256 ∧ State.reset.reg ⟨(0 : Byte).toNat, by decide⟩ < 256 ∧
      244 ≤ State.reset.SP := by decide

theorem witness_CallRule :
    ((m16 .fault 0 0 257 253 []).RegsInRange ∧ (m16 .fault 0 0 257 253 []).mem.wf ∧ (m16 .fault 0 0 257 253 []).pc ≤ 253 ∧
      256 ≤ pushAddress (m16 .fault 0 0 257 253 [])) ∧
    ((m16 .fault 0 0 256 253 []).RegsInRange ∧ (m16 .fault 0 0 256 253 []).mem.wf ∧ (m16 .fault 0 0 256 253 []).pc ≤ 253 ∧
      pushAddress (m16 .fault 0 0 256 253 []) < 256) ∧ (7 : Byte).toNat < 8 ∧ 8 ≤ (8 : Byte).toNat := by decide

theorem witness_ReturnRule : 256 ≤ (m16 .fault 0 0 256 0 []).SP ∧ (m16 .fault 0 0 255 0 []).SP < 256 := by decide

theorem witness_JumpRule :
    (3 : Byte).toNat < 8 ∧ 8 ≤ (8 : Byte).toNat ∧
      (m8 20 0 0xF4 20 []).reg ⟨(0 : Byte).toNat, by decide⟩ = (m8 20 0 0xF4 20 []).pc ∧
      Enabled (m8 254 0 0xF4 0 []) ∧ 254 ≤ (m8 254 0 0xF4 0 []).reg ⟨(0 : Byte).toNat, by decide⟩ := by
  unfold Enabled
  decide

theorem witness_EqualityJumpRules :
    (3 : Byte).toNat < 8 ∧ 8 ≤ (8 : Byte).toNat ∧ (atJump flagE []).fl.E = true ∧ (atJump flagG []).fl.E = false := by decide

theorem witness_OrderJumpRules :
    (3 : Byte).toNat < 8 ∧ 8 ≤ (8 : Byte).toNat ∧ (atJump flagG []).fl.G = true ∧ (atJump flagL []).fl.L = true ∧
      (atJump flagE []).fl.E = true ∧ (atJump noFlags []).fl = noFlags := by decide

theorem witness_CallThenReturnComesBack :
    ∃ t v, exec (.call 0) (m8 12 0 0xF4 253 []) = .next t ∧ exec .ret { t with pc := 40, x := t.x.set 0 99 } = .next v ∧
      (m8 12 0 0xF4 253 []).RegsInRange ∧ (m8 12 0 0xF4 253 []).mem.wf ∧ (m8 12 0 0xF4 253 []).pc ≤ 253 ∧
      (m8 12 0 0xF4 253 []).fault.kind = .none ∧ t.fault.kind = .none ∧
      State.SP { t with pc := 40, x := t.x.set 0 99 } = t.SP := ⟨_, _, rfl, rfl, by decide⟩

theorem witness_MemoryReadIsBoundsChecked : 255 < 256 ∧ 256 ≤ 256 ∧ 256 ≤ (m16 .fault 0 0 256 0 []).SP := by decide

theorem witness_MemoryWriteChecksAddressThenWidth :
    (addAt 0).mem.wf ∧ 255 < 256 ∧ 256 ≤ 256 ∧ (m16 .fault 0 0 0 0 []).params.wideStore = .fault ∧
      (m16 .truncate 0 0 0 0 []).params.wideStore = .truncate := by decide

/-- What the statement assumes of a PUSH or CALL that leaves `t`, and where among the fetched bytes the stored one stands. -/
abbrev FetchHypotheses (i : Instr) (s : State) (offset : Nat) : Prop :=
  ∃ t, nextOf (exec i s) = some t ∧ s.RegsInRange ∧ s.mem.wf ∧ s.fault.kind = .none ∧ t.fault.kind = .none ∧
    (t.running = true ∧ t.fault.kind = .none) ∧ t.pc ≤ 253 ∧ t.SP = t.pc + offset

/-- PUSH r0 and CALL r0 from `pc = 0`, the byte stored at each of the three fetched addresses; and one that makes an
undefined opcode. -/
theorem witness_FetchSeesTheByteJustPushed :
    (FetchHypotheses (.push 0) (m8 1 0 3 0 []) 0 ∧ FetchHypotheses (.push 0) (m8 1 0 4 0 []) 1 ∧
      FetchHypotheses (.push 0) (m8 1 0 5 0 []) 2) ∧
    (FetchHypotheses (.call 0) (m8 253 0 254 0 []) 0 ∧ FetchHypotheses (.call 0) (m8 252 0 254 0 []) 1 ∧
      FetchHypotheses (.call 0) (m8 251 0 254 0 []) 2) ∧
    (0 : Byte).toNat < 8 ∧ decodeInstr (byteAfterStore (m8 1 0 3 0 []) 1 2) 0 0 = .ok .hlt ∧
    decodeInstr (byteAfterStore (m8 0xA5 0 3 0 []) 0xA5 2) 0 0 = .error (.unsupportedOperation 0xA5) :=
  ⟨⟨⟨_, rfl, by decide⟩, ⟨_, rfl, by decide⟩, ⟨_, rfl, by decide⟩⟩,
    ⟨⟨_, rfl, by decide⟩, ⟨_, rfl, by decide⟩, ⟨_, rfl, by decide⟩⟩, by decide⟩

end Sys2Proof.Tests
end

section
/-!
The running flag (10_state.md R27).
-/
namespace Sys2Proof.Machine

variable {s t : State} {i : Instr}

/-- HLT's one next state, for every state it runs in (42_load_output_halt.md R140). -/
theorem exec_hlt (s : State) : exec .hlt s = .next (State.advance { s with running := false } .f0) := rfl

/-- Among the effects of `exec_effect` only HLT's own writes the running flag; the fault entry keeps it too. -/
theorem effect_running_of_ne_hlt (hi : i ≠ .hlt) (h : Effect s i t) : t.running = s.running := by
  cases h with
  | halts => exact absurd rfl hi
  | faults => exact enterFault_running s _
  | setsRegister | setsFlags | emits | pushes | pops | calls | returns | jumps => rfl

theorem exec_running (h : exec i s = .next t) : t.running = if i = .hlt then false else s.running := by
  by_cases hi : i = .hlt
  · subst hi
    rw [exec_hlt] at h
    cases h
    rfl
  · rw [if_neg hi]
    exact effect_running_of_ne_hlt hi (exec_effect h)

@[simp] theorem resetFrom_running (l : Launch) : (State.resetFrom l).running = true := rfl

end Sys2Proof.Machine

namespace Sys2Proof.Claims

/-- Settles O28, by the cases of `Effect`: no effect but HLT's writes the running flag. -/
theorem onlyHltClearsTheRunningFlag : Obligations.OnlyHltClearsTheRunningFlag :=
  ⟨fun _ _ _ h => Machine.exec_running h, Machine.enterFault_running, Machine.resetFrom_running⟩

end Sys2Proof.Claims
end

section
/-!
The memory controller's read (20_memory.md R42).
-/
namespace Sys2Proof.Claims

open Sys2Proof.Machine

/-- Settles O57, by the two answers of `MemRead` on either side of `memSize`, and the stack read's own test of SP, which
comes before `MemRead`'s. -/
theorem memoryReadIsBoundsChecked : Obligations.MemoryReadIsBoundsChecked := by
  intro s addr
  refine ⟨?inside, ?outside, ?stack⟩
  case inside => exact fun haddr => memRead_ok haddr
  case outside => exact fun haddr => memRead_bad haddr
  case stack => exact fun hsp => loadAtSP_bad hsp

end Sys2Proof.Claims
end

section
/-!
The sequencer's advance (30_encoding.md R76).
-/
namespace Sys2Proof

/-- `op[7:6]` is the number of operand bytes of the instruction's format (R61). -/
theorem opCount_opcode (i : Instr) : opCount i.opcode = i.format.operands := by
  cases i <;> simp [Instr.opcode, opCount, Instr.format, Format.operands]

theorem operands_le_two (f : Format) : f.operands ≤ 2 := by
  cases f <;> decide

end Sys2Proof

namespace Sys2Proof.Machine

variable {s t : State} {i : Instr} {r : Raise}

/-- An instruction never raises the kind that stands for no fault. -/
theorem raises_kind_ne_none (h : Raises s i r) : r.kind ≠ .none := by
  cases h <;> nofun

/-- The three effects that write `pc` themselves are those of the instructions with `op[4] = 1`; every other one ends in
the sequencer's advance. -/
theorem effect_pc_of_not_opPcw (h : Effect s i t) (ht : t.fault.kind = .none) (hpcw : opPcw i.opcode = false) :
    t.pc = s.pc + i.format.length := by
  cases h with
  | faults hr => exact absurd ht (raises_kind_ne_none hr)
  | jumps _ _ hp => exact absurd (hp.symm.trans hpcw) (by decide)
  | calls | returns => exact absurd hpcw (by simp [Instr.opcode, opPcw])
  | setsRegister | setsFlags | halts | emits | pushes | pops => rfl

/-- As `effect_pc_of_not_opPcw`, of the instruction itself and with the length read off the opcode byte. -/
theorem exec_pc_of_not_opPcw (h : exec i s = .next t) (ht : t.fault.kind = .none) (hpcw : opPcw i.opcode = false) :
    t.pc = s.pc + 1 + opCount i.opcode := by
  rw [effect_pc_of_not_opPcw (exec_effect h) ht hpcw, opCount_opcode, Format.length, Nat.add_assoc]

end Sys2Proof.Machine

namespace Sys2Proof.Claims

/-- Settles O32, by the cases of `Effect`; the bounds hold since an instruction has at most two operand bytes and PCW is
at least 9. -/
theorem sequencerAdvancesByOnePlusOperandCount : Obligations.SequencerAdvancesByOnePlusOperandCount := by
  intro i s t _ hexec ht hpcw
  have hpc : t.pc = s.pc + 1 + opCount i.opcode := Machine.exec_pc_of_not_opPcw hexec ht hpcw
  have hcount : opCount i.opcode ≤ 2 := opCount_opcode i ▸ operands_le_two i.format
  have hwidth : 512 ≤ 2 ^ s.PCW := s.params.le_pow_PCW
  exact ⟨hpc, fun hlow => ⟨by omega, by omega⟩⟩

end Sys2Proof.Claims
end

section
/-!
The ALU's two-register shape: what a write of one register followed by the advance leaves unchanged, and `BinaryRule` from
an instruction's encoding, its handler and its function in W bits (41_alu.md R90 to R93).
-/
namespace Sys2Proof

/-- A difference reduced modulo `2^W`, in natural numbers (00_scope.md R12). -/
theorem truncIntW_sub {W q : Nat} (p : Nat) (hq : q < 2 ^ W) :
    truncIntW W ((p : Int) - q) = (p + 2 ^ W - q) % 2 ^ W := by
  have hshift : ((p : Int) - q) + (2 ^ W : Nat) = ((p + 2 ^ W - q : Nat) : Int) := by omega
  calc truncIntW W ((p : Int) - q)
      = truncIntW W (((p : Int) - q) + (2 ^ W : Nat)) := by rw [truncIntW, truncIntW, Int.add_emod_right]
    _ = (p + 2 ^ W - q) % 2 ^ W := by rw [hshift, truncIntW_ofNat, truncW]

namespace Machine

theorem truncW_aluSub {W q : Nat} (p : Nat) (hq : q < 2 ^ W) :
    truncW W (aluSub W p q) = (p + 2 ^ W - q) % 2 ^ W := by
  rw [aluSub, truncW_of_lt (truncIntW_lt W _), truncIntW_sub p hq]

theorem truncW_aluOr {W p q : Nat} (hp : p < 2 ^ W) (hq : q < 2 ^ W) : truncW W (aluOr W p q) = p ||| q :=
  truncW_of_lt (Nat.or_lt_two_pow hp hq)

theorem truncW_aluXor {W p q : Nat} (hp : p < 2 ^ W) (hq : q < 2 ^ W) : truncW W (aluXor W p q) = p ^^^ q :=
  truncW_of_lt (Nat.xor_lt_two_pow hp hq)

end Machine

end Sys2Proof

namespace Sys2Proof.Claims

open Sys2Proof.Machine

/-- A register write and the sequencer's advance change that register and `pc` alone. -/
theorem onlyRegs_setReg_advance (s : State) (a : RegIx) (v : Nat) (f : Format) :
    OnlyRegs [a] s ((s.setReg a v).advance f) :=
  ⟨fun _ hi => reg_setReg_other s v (List.ne_of_not_mem_cons hi), rfl, fun _ => rfl, ⟨rfl, rfl, rfl⟩, rfl⟩

section binary

variable {mk : Byte → Byte → Instr} {f : Nat → Nat → Nat → Nat}

/-- The operand bytes are checked in order, before the function is applied (30_encoding.md R66). -/
theorem badOperandsFault_of_aluBinary
    (hexec : ∀ ra rb s, exec (mk ra rb) s = sequenced .f2 s (aluBinary f ra rb s)) : BadOperandsFault mk := by
  intro s ra rb
  refine ⟨fun ha => ?operandA, fun ha hb => ?operandB⟩
  case operandA =>
    rw [TakesFault, hexec, aluBinary_bad_a ha]
    rfl
  case operandB =>
    rw [TakesFault, hexec, aluBinary_bad_b ha hb]
    rfl

/-- An instruction that runs `aluBinary f` meets the rule of every `res` that `f` agrees with on W-bit values, after the
register write's own reduction (R93). -/
theorem binaryRule_of_aluBinary {op : Byte} {res : Nat → Nat → Nat → Nat}
    (henc : ∀ ra rb, encode (mk ra rb) = [op, ra, rb])
    (hexec : ∀ ra rb s, exec (mk ra rb) s = sequenced .f2 s (aluBinary f ra rb s))
    (hres : ∀ W p q, p < 2 ^ W → q < 2 ^ W → truncW W (f W p q) = res W p q) : BinaryRule mk op res := by
  refine ⟨henc, badOperandsFault_of_aluBinary hexec, fun s ra rb ha hb hrange => ?_⟩
  refine ⟨_, by rw [hexec, aluBinary_ok ha hb, sequenced_ok], ?result, rfl, onlyRegs_setReg_advance s _ _ _⟩
  case result => rw [advance_reg, reg_setReg_same, hres _ _ _ (hrange _) (hrange _)]

end binary

/-- Settles O33: the register write reduces the exact sum. -/
theorem addRule : Obligations.AddRule :=
  binaryRule_of_aluBinary (f := aluAdd) (fun _ _ => rfl) (fun _ _ _ => rfl) fun _ _ _ _ _ => rfl

/-- Settles O34, by the difference modulo `2^W` in natural numbers. -/
theorem subRule : Obligations.SubRule :=
  binaryRule_of_aluBinary (f := aluSub) (fun _ _ => rfl) (fun _ _ _ => rfl) fun _ p _ _ hq => truncW_aluSub p hq

/-- Settles O35: the register write keeps the low W bits of the exact product. -/
theorem multRule : Obligations.MultRule :=
  binaryRule_of_aluBinary (f := aluMult) (fun _ _ => rfl) (fun _ _ _ => rfl) fun _ _ _ _ _ => rfl

/-- Settles O39: the results of OR and XOR on W-bit values have W bits, so the register write keeps them whole. -/
theorem bitwiseOrAndXorRules : Obligations.BitwiseOrAndXorRules := by
  refine ⟨?or, ?xor⟩
  case or =>
    exact binaryRule_of_aluBinary (f := aluOr) (fun _ _ => rfl) (fun _ _ _ => rfl) fun _ _ _ => truncW_aluOr
  case xor =>
    exact binaryRule_of_aluBinary (f := aluXor) (fun _ _ => rfl) (fun _ _ _ => rfl) fun _ _ _ => truncW_aluXor

end Sys2Proof.Claims
end

section
/-!
LDI (42_load_output_halt.md R141).
-/
namespace Sys2Proof.Machine

variable {s : State} {ra imm : Byte}

theorem exec_ldi_ok (ha : ra.toNat < 8) :
    exec (.ldi ra imm) s = .next ((s.setReg ⟨ra.toNat, ha⟩ (immOperand imm)).advance .f2) := by
  rw [exec, execLdi, regOperand_ok ha]
  rfl

/-- Only operand_a can fault: the immediate is never decoded as a register. -/
theorem exec_ldi_bad (ha : 8 ≤ ra.toNat) :
    exec (.ldi ra imm) s = .next (s.enterFault { kind := .outOfBounds, info := ra.toNat }) := by
  rw [exec, execLdi, regOperand_bad ha]
  rfl

/-- An immediate is a byte and W is at least 8, so a register write keeps it whole: zero-extended (00_scope.md R7). -/
theorem truncW_immOperand (p : Params) (imm : Byte) : truncW p.W (immOperand imm) = imm.toNat :=
  truncW_of_lt (imm.isLt.trans_le p.byte_lt_pow_W)

end Sys2Proof.Machine

namespace Sys2Proof.Claims

open Sys2Proof.Machine

/-- Settles O44, by the two answers of the register operand; every register has room for the whole immediate. -/
theorem loadImmediateRule : Obligations.LoadImmediateRule := by
  refine ⟨?encoding, ?badOperand, ?completes⟩
  case encoding => exact fun _ _ => rfl
  case badOperand => exact fun _ _ _ ha => exec_ldi_bad ha
  case completes =>
    intro s ra imm ha
    refine ⟨_, exec_ldi_ok ha, ?result, rfl, onlyRegs_setReg_advance s _ _ _⟩
    case result => rw [advance_reg, reg_setReg_same, State.W, truncW_immOperand]

end Sys2Proof.Claims
end

section
/-!
The jumps through a register (44_control_transfer.md R182 to R189).
-/
namespace Sys2Proof.Machine

variable {s : State} {ra : Byte}

/-- An enabled step whose fetch reaches past the end of memory takes the fault entry (30_encoding.md R73, R77). -/
theorem step_high (hrun : s.running = true ∧ s.fault.kind = .none) (hpc : 254 ≤ s.pc) :
    step s = .next (s.enterFault { kind := .outOfBounds, info := max s.pc 256 }) := by
  rw [step, stopReason_eq_none.2 hrun, fetchDecode_high hpc]
  rfl

theorem exec_jmp_ok (ha : ra.toNat < 8) : exec (.jmp ra) s = .next { s with pc := s.reg ⟨ra.toNat, ha⟩ } := by
  rw [exec, execJmp, jumpIf_ok ha, commit_ok, if_pos rfl]

theorem withPc_eq_self {p : Nat} (hp : p = s.pc) : { s with pc := p } = s := by
  rw [hp]

end Sys2Proof.Machine

namespace Sys2Proof.Claims

open Sys2Proof.Machine

/-- A write of `pc` changes no register and nothing else. -/
theorem onlyRegs_withPc (s : State) (p : Nat) : OnlyRegs [] s { s with pc := p } :=
  ⟨fun _ _ => rfl, rfl, fun _ => rfl, ⟨rfl, rfl, rfl⟩, rfl⟩

section jump

variable {mk : Byte → Instr} {taken : Flags → Bool}

/-- The operand is decoded whether the jump is taken or not (R189). -/
theorem badOperandFaults_of_jumpIf
    (hexec : ∀ ra s, exec (mk ra) s = commit s (jumpIf (taken s.fl) ra s)) : BadOperandFaults mk := by
  intro s ra ha
  rw [TakesFault, hexec, jumpIf_bad ha]
  rfl

/-- An instruction that runs `jumpIf` under a test of the flags meets the rule of the condition that the test decides. -/
theorem condJumpRule_of_jumpIf {op : Byte} {cond : Flags → Prop} (henc : ∀ ra, encode (mk ra) = [op, ra])
    (hexec : ∀ ra s, exec (mk ra) s = commit s (jumpIf (taken s.fl) ra s))
    (htaken : ∀ f, taken f = true ↔ cond f) : CondJumpRule mk op cond := by
  refine ⟨henc, badOperandFaults_of_jumpIf hexec, fun s ra ha => ?_⟩
  refine ⟨_, by rw [hexec, jumpIf_ok ha, commit_ok], ?taken, ?notTaken, onlyRegs_withPc s _⟩
  case taken => exact fun hcond => if_pos ((htaken _).2 hcond)
  case notTaken => exact fun hcond => if_neg (mt (htaken _).1 hcond)

end jump

/-- Settles O53: a jump through a register whose condition always holds; past the last address a fetch can begin at, the
next step is that of `step_high`. -/
theorem jumpRule : Obligations.JumpRule := by
  refine ⟨fun _ => rfl, badOperandFaults_of_jumpIf (taken := fun _ => true) fun _ _ => rfl, fun s ra ha => ?_⟩
  refine ⟨_, exec_jmp_ok ha, rfl, onlyRegs_withPc s _, ?toItself, ?outsideMemory⟩
  case toItself => exact fun hself => withPc_eq_self hself
  case outsideMemory => exact fun hrun hhigh => step_high hrun hhigh

/-- Settles O54: JEQ tests E, and JNE its negation. -/
theorem equalityJumpRules : Obligations.EqualityJumpRules := by
  refine ⟨?jeq, ?jne⟩
  case jeq => exact condJumpRule_of_jumpIf (taken := Flags.equal) (fun _ => rfl) (fun _ _ => rfl) fun _ => Iff.rfl
  case jne =>
    exact condJumpRule_of_jumpIf (taken := Flags.notEqual) (fun _ => rfl) (fun _ _ => rfl) fun f =>
      Iff.of_eq (Bool.not_eq_true' f.E)

end Sys2Proof.Claims
end

section
/-!
The origin of DivisionByZero (60_exceptions.md R212).
-/
namespace Sys2Proof.Machine

variable {s t : State} {i : Instr} {r : Raise} {ra rb : Byte}

/-- Only the fault entry writes the fault record: every other effect keeps it (60_exceptions.md R214). -/
theorem effect_fault_cases (h : Effect s i t) :
    (∃ r, Raises s i r ∧ t = s.enterFault r) ∨ t.fault = s.fault := by
  cases h with
  | faults hr => exact .inl ⟨_, hr, rfl⟩
  | setsRegister | setsFlags | halts | emits | pushes | pops | calls | returns | jumps => exact .inr rfl

/-- Among the reasons for a fault only a zero divisor is recorded as DivisionByZero. -/
theorem zeroDivisor_of_raises_divisionByZero (h : Raises s i r) (hk : r.kind = .divisionByZero) :
    ∃ (ra rb : Byte) (_ : ra.toNat < 8) (hb : rb.toNat < 8),
      (i = .div ra rb ∨ i = .mod ra rb) ∧ s.reg ⟨rb.toNat, hb⟩ = 0 := by
  cases h with
  | zeroDivisor hi ha hb h0 => exact ⟨_, _, ha, hb, hi, h0⟩
  | badOperand | underflow | storeOutOfBounds | storeTooWide => nomatch hk

/-- DIV and MOD by a register of 0 take the fault entry, with the divisor's index. -/
theorem exec_zeroDivisor (hi : i = .div ra rb ∨ i = .mod ra rb) (ha : ra.toNat < 8) (hb : rb.toNat < 8)
    (h0 : s.reg ⟨rb.toNat, hb⟩ = 0) :
    exec i s = .next (s.enterFault { kind := .divisionByZero, info := rb.toNat }) := by
  rcases hi with rfl | rfl
  · rw [exec, execDiv, aluDivide_zero ha hb h0, sequenced_raise]
  · rw [exec, execMod, aluDivide_zero ha hb h0, sequenced_raise]

end Sys2Proof.Machine

namespace Sys2Proof.Claims

open Sys2Proof.Machine

/-- Settles O24: a DivisionByZero that the state before did not hold was raised, and `Raises` has one reason of that kind;
conversely DIV and MOD by 0 have `exec_zeroDivisor`'s state as their one next state. -/
theorem divisionByZeroComesFromDivAndModAlone : Obligations.DivisionByZeroComesFromDivAndModAlone := by
  intro i s t hs hexec
  refine ⟨fun ht => ?origin, fun hzero => ?raised⟩
  case origin =>
    rcases effect_fault_cases (exec_effect hexec) with ⟨r, hr, rfl⟩ | hkeep
    · exact zeroDivisor_of_raises_divisionByZero hr ht
    · rw [hkeep, hs] at ht
      cases ht
  case raised =>
    obtain ⟨ra, rb, ha, hb, hi, h0⟩ := hzero
    have hnext := exec_zeroDivisor hi ha hb h0
    rw [hexec] at hnext
    cases hnext
    rfl

end Sys2Proof.Claims
end

section
/-!
Decode and encode (30_encoding.md R61, R68, R70 to R72).
-/
namespace Sys2Proof

/-- The elements of a list in front of another are those of the two together. -/
theorem getD_append_getD {α : Type} (l r : List α) (n : Nat) (d : α) :
    l.getD n ((l ++ r).getD n d) = (l ++ r).getD n d := by
  rcases Nat.lt_or_ge n l.length with h | h
  · rw [List.getD_append l r d n h, List.getD_eq_getElem l _ h, List.getD_eq_getElem l d h]
  · exact List.getD_eq_default l _ h

/-- The operand bytes of an instruction are the first of the two that `decode` hands to the dispatcher. -/
theorem take_getD_pair {α : Type} {l : List α} {n : Nat} (d : α) (h2 : n ≤ 2) (hn : n ≤ l.length) :
    [l.getD 0 d, l.getD 1 d].take n = l.take n := by
  match n, l with
  | 0, _ => rfl
  | 1, _ :: _ => rfl
  | 2, _ :: _ :: _ => rfl

/-- `decode` answers what the dispatcher answers on the first two bytes after the opcode, where the operands are there. -/
theorem decode_cons_ok_iff {op : Byte} {tail rest : List Byte} {i : Instr} :
    decode (op :: tail) = .ok (i, rest) ↔
      decodeInstr op (tail.getD 0 0) (tail.getD 1 0) = .ok i ∧ i.format.operands ≤ tail.length ∧
        rest = tail.drop i.format.operands := by
  rw [decode]
  cases decodeInstr op (tail.getD 0 0) (tail.getD 1 0) with
  | error u => simp
  | ok j =>
    by_cases hlen : j.format.operands ≤ tail.length
    · simp only [if_pos hlen, Except.ok.injEq, Prod.mk.injEq]
      constructor
      · rintro ⟨rfl, rfl⟩
        exact ⟨rfl, hlen, rfl⟩
      · rintro ⟨rfl, -, rfl⟩
        exact ⟨rfl, rfl⟩
    · simp only [if_neg hlen, Except.ok.injEq]
      constructor
      · nofun
      · rintro ⟨rfl, hlen', -⟩
        exact absurd hlen' hlen

/-- The decoder reads back what the encoder wrote, whatever bytes follow. -/
theorem decode_encode_append (i : Instr) (rest : List Byte) : decode (encode i ++ rest) = .ok (i, rest) := by
  rw [encode, List.cons_append]
  refine decode_cons_ok_iff.2 ⟨?dispatch, ?length, ?rest⟩
  case dispatch =>
    have h := decodeInstr_opcode i ((i.operandBytes ++ rest).getD 0 0) ((i.operandBytes ++ rest).getD 1 0)
    rwa [getD_append_getD, getD_append_getD] at h
  case length =>
    rw [← operandBytes_length, List.length_append]
    exact Nat.le_add_right _ _
  case rest => rw [← operandBytes_length, List.drop_left]

/-- A byte string that decodes begins with the encoding of the answer: no bit of it is dropped. -/
theorem eq_encode_append_of_decode {bytes rest : List Byte} {i : Instr} (h : decode bytes = .ok (i, rest)) :
    bytes = encode i ++ rest := by
  cases bytes with
  | nil => nomatch h
  | cons op tail =>
    obtain ⟨hdispatch, hlen, rfl⟩ := decode_cons_ok_iff.1 h
    obtain ⟨hop, hoperands⟩ := decodeInstr_ok hdispatch
    rw [take_getD_pair 0 (operands_le_two _) hlen] at hoperands
    rw [encode, hop, hoperands, List.cons_append, List.take_append_drop]

/-- The dispatcher rejects an opcode byte that is no instruction's, by its bit 5. -/
theorem decodeInstr_undefined {op : Byte} (a b : Byte) (h : ∀ i : Instr, i.opcode ≠ op) :
    decodeInstr op a b = .error (undefinedOpcode op) := by
  cases hd : decodeInstr op a b with
  | ok i => exact absurd (decodeInstr_ok hd).1 (h i)
  | error u => rw [decodeInstr_error hd]

/-- `op[4]` marks the instructions that set `pc` (30_encoding.md R78). -/
theorem opPcw_opcode (i : Instr) : opPcw i.opcode = Claims.setsPc i := by
  cases i <;> simp [Instr.opcode, opPcw, Claims.setsPc]

/-- `op[5]` marks the ALU's instructions (30_encoding.md R78). -/
theorem opAlu_opcode (i : Instr) : opAlu i.opcode = Claims.isAlu i := by
  cases i <;> simp [Instr.opcode, opAlu, Claims.isAlu]

end Sys2Proof

namespace Sys2Proof.Claims

/-- Settles O2: the decoder reads back every encoding, and reads nothing that is not one. -/
theorem decodeAndEncodeAgree : Obligations.DecodeAndEncodeAgree := by
  intro bytes i rest
  refine ⟨eq_encode_append_of_decode, ?decodes⟩
  case decodes =>
    rintro rfl
    exact decode_encode_append i rest

/-- Settles O4: an undefined byte has one answer, whose name is the bit's. -/
theorem undefinedBytesAreRejectedByBitFive : Obligations.UndefinedBytesAreRejectedByBitFive := by
  intro op a b hop
  rw [decodeInstr_undefined a b hop, undefinedOpcode, opAlu]
  refine ⟨fun h5 => ?set, fun h5 => ?clear⟩
  case set => rw [if_pos h5]
  case clear => rw [if_neg (by rw [h5]; decide)]

/-- Settles O6: the dispatcher's answer holds the operand bytes that `op[7:6]` counts and no other, and it is the same for
every byte in another place. -/
theorem extraOperandBytesAreIgnored : Obligations.ExtraOperandBytesAreIgnored := by
  intro op a b a' b' i h
  obtain ⟨rfl, hoperands⟩ := decodeInstr_ok h
  rw [opCount_opcode]
  refine ⟨fun hcount => ?zero, fun hcount => ?one⟩
  all_goals
    rw [hcount] at hoperands
    have hsame := decodeInstr_opcode i a' b'
    rw [hoperands] at hsame
    exact hsame

/-- Settles O1: each word is the encoding of its instruction. -/
theorem tableWordsDecodeToTheirInstructions : Obligations.TableWordsDecodeToTheirInstructions := fun rest =>
  ⟨decode_encode_append (.add 1 2) rest, decode_encode_append (.inc 4) rest, decode_encode_append (.and 0 7) rest,
    decode_encode_append (.shr 5 6) rest, decode_encode_append (.cmp 3 3) rest, decode_encode_append .hlt rest,
    decode_encode_append (.ldi 0 255) rest, decode_encode_append (.push 7) rest, decode_encode_append .ret rest,
    decode_encode_append (.jge 2) rest⟩

/-- Settles O3: `op[7:6]` is the format's operand count, and bits 4 and 5 are the two classes. -/
theorem opcodeBitsDescribeTheInstruction : Obligations.OpcodeBitsDescribeTheInstruction := by
  intro i
  have hcount : i.operandBytes.length = opCount i.opcode := (operandBytes_length i).trans (opCount_opcode i).symm
  refine ⟨?length, hcount, ?atMostTwo, by rw [opPcw_opcode], by rw [opAlu_opcode]⟩
  case length => rw [encode, List.length_cons, hcount, Nat.add_comm]
  case atMostTwo => exact opCount_opcode i ▸ operands_le_two i.format

/-- Settles O5, by counting: the 256 opcode bytes are a closed finite fact. -/
theorem opcodeSpaceCounts : Obligations.OpcodeSpaceCounts := by
  unfold Obligations.OpcodeSpaceCounts
  decide +kernel

end Sys2Proof.Claims
end

section
/-!
The step (30_encoding.md R72 to R77, 10_state.md R29): what it does in each case of the fetch, and every fault it can
record.
-/
namespace Sys2Proof.Machine

open Sys2Proof.Claims (dispatched)

variable {s t : State} {i : Instr}

theorem commit_next (s : State) (r : Result State) : ∃ t, commit s r = .next t := by
  cases r with
  | ok t => exact ⟨t, commit_ok⟩
  | error r => exact ⟨_, commit_error r⟩

/-- Every instruction ends in `commit`, the sequenced ones too, so it has a next state. -/
theorem exec_next (i : Instr) (s : State) : ∃ t, exec i s = .next t := by
  cases i with
  | hlt => exact ⟨_, exec_hlt s⟩
  | _ => exact commit_next s _

theorem step_of_dispatched_ok (hrun : s.running = true ∧ s.fault.kind = .none) (hpc : s.pc ≤ 253)
    (hd : dispatched s = .ok i) : step s = exec i s := by
  rw [dispatched] at hd
  rw [step, stopReason_eq_none.2 hrun, fetchDecode_low hpc, hd]
  rfl

theorem step_of_dispatched_error {u : UndefinedOpcode} (hrun : s.running = true ∧ s.fault.kind = .none)
    (hpc : s.pc ≤ 253) (hd : dispatched s = .error u) : step s = .next (s.enterFault (raiseOfUndefined u)) := by
  rw [dispatched] at hd
  rw [step, stopReason_eq_none.2 hrun, fetchDecode_low hpc, hd]
  rfl

theorem step_of_stopReason {reason : Fault} (h : s.stopReason = some reason) : step s = .fault reason := by
  rw [step, h]

/-- Where no step is enabled there is a reason (10_state.md R29). -/
theorem exists_stopReason (h : ¬(s.running = true ∧ s.fault.kind = .none)) : ∃ reason, s.stopReason = some reason :=
  Option.ne_none_iff_exists'.1 fun hnone => h (stopReason_eq_none.1 hnone)

theorem step_next_of_enabled (hrun : s.running = true ∧ s.fault.kind = .none) : ∃ t, step s = .next t := by
  rcases Nat.lt_or_ge 253 s.pc with hpc | hpc
  · exact ⟨_, step_high hrun hpc⟩
  · cases hd : dispatched s with
    | error u => exact ⟨_, step_of_dispatched_error hrun hpc hd⟩
    | ok i => exact step_of_dispatched_ok hrun hpc hd ▸ exec_next i s

/-- Memory that holds an encoding at `pc` dispatches to its instruction: the fetched bytes past the encoding are ignored. -/
theorem dispatched_of_encode_at_pc
    (h : ∀ (k : Nat) (hk : k < (encode i).length), s.mem.read (s.pc + k) = (encode i)[k]) : dispatched s = .ok i := by
  have hop : s.mem.read s.pc = i.opcode := h 0 (Nat.succ_pos _)
  have hoperand : ∀ k, i.operandBytes.getD k (s.mem.read (s.pc + (k + 1))) = s.mem.read (s.pc + (k + 1)) := by
    intro k
    rcases Nat.lt_or_ge k i.operandBytes.length with hk | hk
    · rw [List.getD_eq_getElem _ _ hk, h (k + 1) (Nat.succ_lt_succ hk)]
      rfl
    · exact List.getD_eq_default _ _ hk
  have hdecode := decodeInstr_opcode i (s.mem.read (s.pc + 1)) (s.mem.read (s.pc + 2))
  rw [hoperand 0, hoperand 1, ← hop] at hdecode
  exact hdecode

/-- The fault of an undefined opcode byte, by its bit 5 (30_encoding.md R72). -/
theorem raiseOfUndefined_undefinedOpcode (op : Byte) :
    raiseOfUndefined (undefinedOpcode op) =
      { kind := if op.getLsbD 5 then .unsupportedOperation else .unrecognizedInstruction, info := op.toNat } := by
  rw [undefinedOpcode, opAlu]
  cases op.getLsbD 5 <;> rfl

/-- The fault that a step records, with the reason for it: the fetch, the dispatcher or the instruction. -/
inductive StepRaises (s : State) : Raise → Prop where
  | fetch (h : 254 ≤ s.pc) : StepRaises s { kind := .outOfBounds, info := max s.pc 256 }
  | undefinedOpcode (u : UndefinedOpcode) : StepRaises s (raiseOfUndefined u)
  | instruction {i : Instr} {r : Raise} (hpc : s.pc ≤ 253) (hd : dispatched s = .ok i) (h : Raises s i r) :
      StepRaises s r

/-- A step ends in the fault entry, or in an effect of the dispatched instruction that keeps the fault record. -/
theorem step_effect (h : step s = .next t) :
    (s.running = true ∧ s.fault.kind = .none) ∧
      ((∃ r, StepRaises s r ∧ t = s.enterFault r) ∨
        ∃ i, s.pc ≤ 253 ∧ dispatched s = .ok i ∧ Effect s i t ∧ t.fault = s.fault) := by
  obtain ⟨hrun, ⟨hpc, rfl⟩ | ⟨hpc, ⟨u, -, rfl⟩ | ⟨i, hd, hexec⟩⟩⟩ := step_cases h
  · exact ⟨hrun, .inl ⟨_, .fetch hpc, rfl⟩⟩
  · exact ⟨hrun, .inl ⟨_, .undefinedOpcode u, rfl⟩⟩
  · refine ⟨hrun, ?_⟩
    have heffect := exec_effect hexec
    rcases effect_fault_cases heffect with ⟨r, hr, rfl⟩ | hkeep
    · exact .inl ⟨r, .instruction hpc hd hr, rfl⟩
    · exact .inr ⟨i, hpc, hd, heffect, hkeep⟩

theorem stepRaises_kind_ne_none {r : Raise} (h : StepRaises s r) : r.kind ≠ .none := by
  cases h with
  | fetch => nofun
  | undefinedOpcode u => cases u <;> nofun
  | instruction _ _ hr => exact raises_kind_ne_none hr

/-- A step that leaves a fault recorded has entered it. -/
theorem stepRaises_of_step (h : step s = .next t) (ht : t.fault.kind ≠ .none) :
    ∃ r, StepRaises s r ∧ t = s.enterFault r := by
  obtain ⟨⟨-, hnone⟩, hraise | ⟨i, -, -, -, hkeep⟩⟩ := step_effect h
  · exact hraise
  · exact absurd (hkeep ▸ hnone) ht

end Sys2Proof.Machine

namespace Sys2Proof.Claims

open Sys2Proof.Machine

/-- Settles O7. -/
theorem stepRunsTheFetchedInstruction : Obligations.StepRunsTheFetchedInstruction :=
  fun _ _ hrun hpc hd => step_of_dispatched_ok hrun hpc hd

/-- Settles O8: the fetched bytes dispatch to the instruction whose encoding they begin with. -/
theorem stepRunsTheEncodedInstruction : Obligations.StepRunsTheEncodedInstruction :=
  fun _ _ hrun hpc hbytes => step_of_dispatched_ok hrun hpc (dispatched_of_encode_at_pc hbytes)

/-- Settles O9, by `step_high`. -/
theorem fetchAt254OrAboveFaults : Obligations.FetchAt254OrAboveFaults :=
  fun _ hrun hpc => step_high hrun hpc

/-- Settles O10: the dispatcher rejects the byte, and the step enters the fault of the rejection. -/
theorem undefinedOpcodeStepTakesItsFault : Obligations.UndefinedOpcodeStepTakesItsFault := by
  intro s hrun hpc hop
  rw [step_of_dispatched_error hrun hpc (decodeInstr_undefined _ _ hop), raiseOfUndefined_undefinedOpcode]
  rfl

/-- Settles O11, by the two reasons for a stop. -/
theorem stoppedEngineTakesNoStep : Obligations.StoppedEngineTakesNoStep := by
  intro s
  refine ⟨fun hstop => step_of_stopReason ?halted, fun hrun hfault => step_of_stopReason ?faulted⟩
  case halted => rw [State.stopReason, if_pos hstop]
  case faulted => rw [State.stopReason, if_neg (by rw [hrun]; decide), if_neg hfault]

/-- Settles O12: an enabled step has a next state in each case of the fetch, and a step that is not enabled stops under its
reason's name. -/
theorem enabledStepAlwaysHasANextState : Obligations.EnabledStepAlwaysHasANextState := by
  intro s
  refine ⟨⟨step_next_of_enabled, fun ⟨_, ht⟩ => (step_cases ht).1⟩, fun r hrefused => ?notRefused⟩
  case notRefused =>
    by_cases hrun : s.running = true ∧ s.fault.kind = .none
    · obtain ⟨t, ht⟩ := step_next_of_enabled hrun
      nomatch ht.symm.trans hrefused
    · obtain ⟨reason, hreason⟩ := exists_stopReason hrun
      nomatch (step_of_stopReason hreason).symm.trans hrefused

/-- Settles O21: the fault entry writes the record alone, with the `pc` of the step. -/
theorem faultsAreAllOrNothing : Obligations.FaultsAreAllOrNothing := by
  intro s t h ht
  obtain ⟨r, -, rfl⟩ := stepRaises_of_step h ht
  rfl

end Sys2Proof.Claims
end

section
/-!
What every step keeps: widths, canonical memory and parameters (10_state.md R31), and the coherence of the stop
(60_exceptions.md R214, R215).
-/
namespace Sys2Proof.Machine

variable {s t : State} {i : Instr} {r : Raise}

/-- A register write reduces its value, so it keeps every register in range (00_scope.md R12). -/
theorem setReg_regsInRange (h : s.RegsInRange) (a : RegIx) (v : Nat) : (s.setReg a v).RegsInRange := by
  intro j
  rw [reg_setReg]
  split
  · exact truncW_lt s.W v
  · exact h j

theorem decSP_regsInRange (h : s.RegsInRange) : s.decSP.RegsInRange := setReg_regsInRange h _ _

theorem incSP_regsInRange (h : s.RegsInRange) : s.incSP.RegsInRange := setReg_regsInRange h _ _

theorem effect_params (h : Effect s i t) : t.params = s.params := by
  cases h <;> rfl

theorem effect_regsInRange (h : Effect s i t) (hr : s.RegsInRange) : t.RegsInRange := by
  cases h with
  | setsRegister a v => exact setReg_regsInRange hr a v
  | pops ra a => exact incSP_regsInRange (setReg_regsInRange hr a _)
  | returns => exact incSP_regsInRange hr
  | pushes | calls => exact decSP_regsInRange hr
  | faults | setsFlags | halts | emits | jumps => exact hr

theorem format_length_le (f : Format) : f.length ≤ 3 := by
  cases f <;> decide

/-- The sequencer's advance from a fetched address, and every target of a jump, has PCW bits (00_scope.md R8). -/
theorem effect_pc_lt (h : Effect s i t) (hr : s.RegsInRange) (hpc : s.pc ≤ 253) : t.pc < 2 ^ s.PCW := by
  have hwide : 512 ≤ 2 ^ s.PCW := s.params.le_pow_PCW
  have hreg : ∀ {v : Nat}, v < 2 ^ s.W → v < 2 ^ s.PCW := fun hv => hv.trans_le s.params.pow_W_le_pow_PCW
  have hadvance : ∀ f : Format, s.pc + f.length < 2 ^ s.PCW := fun f => by
    have := format_length_le f
    omega
  cases h with
  | faults => rw [enterFault_pc]; omega
  | setsRegister | setsFlags | halts | emits | pushes | pops => exact hadvance _
  | calls ra a => exact hreg (decSP_regsInRange hr a)
  | returns =>
    have hbyte := (s.mem.read s.SP).isLt
    show (s.mem.read s.SP).toNat < 2 ^ s.PCW
    omega
  | jumps a p _ _ hp =>
    rcases hp with rfl | rfl
    · exact hreg (hr a)
    · show s.pc + 2 < 2 ^ s.PCW
      omega

theorem effect_mem_wf (h : Effect s i t) (hm : s.mem.wf) : t.mem.wf := by
  cases h with
  | pushes _ _ _ hsp | calls _ _ _ hsp => exact Memory.write_wf _ hsp hm
  | faults | setsRegister | setsFlags | halts | emits | pops | returns | jumps => exact hm

theorem effect_output_lt (h : Effect s i t) (hr : s.RegsInRange) (ho : ∀ v ∈ s.output, v < 2 ^ s.W) :
    ∀ v ∈ t.output, v < 2 ^ s.W := by
  cases h with
  | emits ra a =>
    intro v hv
    rcases List.mem_append.1 hv with hv | hv
    · exact ho v hv
    · exact List.mem_singleton.1 hv ▸ hr a
  | faults | setsRegister | setsFlags | halts | pushes | pops | calls | returns | jumps => exact ho

/-- The information of an instruction's fault: an operand byte, a register index, or an SP of W bits. -/
theorem raises_info_lt (h : Raises s i r) (hr : s.RegsInRange) : r.info < 2 ^ s.W := by
  have hwide : 2 ^ 8 ≤ 2 ^ s.W := s.params.byte_lt_pow_W
  cases h with
  | badOperand | zeroDivisor => exact (BitVec.isLt _).trans_le hwide
  | underflow => exact hr spIx
  | storeOutOfBounds | storeTooWide => exact decSP_regsInRange hr spIx

theorem stepRaises_info_lt (h : StepRaises s r) (hr : s.RegsInRange) (hpc : s.pc < 2 ^ s.PCW) :
    r.info < 2 ^ (s.PCW + 1) := by
  have hwide : 512 ≤ 2 ^ s.PCW := s.params.le_pow_PCW
  have hreg : 2 ^ s.W ≤ 2 ^ s.PCW := s.params.pow_W_le_pow_PCW
  rw [Nat.pow_succ]
  cases h with
  | fetch =>
    show max s.pc 256 < _
    omega
  | undefinedOpcode u =>
    have hbyte : (raiseOfUndefined u).info < 256 := by
      cases u with
      | unsupportedOperation op | unrecognizedInstruction op => exact op.isLt
    omega
  | instruction _ _ hraise =>
    have := raises_info_lt hraise hr
    omega

theorem enterFault_wf (h : s.Wf) (hi : r.info < 2 ^ (s.PCW + 1)) : (s.enterFault r).Wf := by
  obtain ⟨hr, hpc, -, -, hm, ho⟩ := h
  exact ⟨hr, hpc, hpc, hi, hm, ho⟩

/-- An effect that keeps the fault record keeps the state well formed. -/
theorem effect_wf (h : Effect s i t) (hwf : s.Wf) (hpc : s.pc ≤ 253) (hkeep : t.fault = s.fault) : t.Wf := by
  obtain ⟨hr, -, hfpc, hfinfo, hm, ho⟩ := hwf
  have hparams := effect_params h
  have hW : t.W = s.W := congrArg Params.W hparams
  have hPCW : t.PCW = s.PCW := congrArg Params.PCW hparams
  refine ⟨effect_regsInRange h hr, ?_⟩
  rw [hW, hPCW, hkeep]
  exact ⟨effect_pc_lt h hr hpc, hfpc, hfinfo, effect_mem_wf h hm, effect_output_lt h hr ho⟩

/-- Among the reasons for a fault only a store of a wide value under `WIDE_STORE = fault` is recorded as ValueTooWide. -/
theorem raises_valueTooWide (h : Raises s i r) (hk : r.kind = .valueTooWide) : s.params.wideStore = .fault := by
  cases h with
  | storeTooWide _ _ _ _ hw => exact hw
  | badOperand | zeroDivisor | underflow | storeOutOfBounds => nomatch hk

theorem stepRaises_valueTooWide (h : StepRaises s r) (hk : r.kind = .valueTooWide) : s.params.wideStore = .fault := by
  cases h with
  | fetch => nomatch hk
  | undefinedOpcode u => cases u <;> nomatch hk
  | instruction _ _ hr => exact raises_valueTooWide hr hk

end Sys2Proof.Machine

namespace Sys2Proof.Claims

open Sys2Proof.Machine

/-- Settles O13, by the cases of the step: the fault entry writes a record within its widths, and every effect of an
instruction keeps each field within its own. -/
theorem stepKeepsTheStateWellFormed : Obligations.StepKeepsTheStateWellFormed := by
  intro s t hwf hstep
  obtain ⟨-, ⟨r, hraise, rfl⟩ | ⟨i, hpc, -, heffect, hkeep⟩⟩ := step_effect hstep
  · have ⟨hr, hpc, _⟩ := hwf
    exact ⟨enterFault_wf hwf (stepRaises_info_lt hraise hr hpc), rfl⟩
  · exact ⟨effect_wf heffect hwf hpc hkeep, effect_params heffect⟩

/-- Settles O14: a fault entered is named with the `pc` it left and `running` at 1; every other step keeps the clear
record. -/
theorem stepKeepsTheStopCoherent : Obligations.StepKeepsTheStopCoherent := by
  intro s t hcoherent hstep
  obtain ⟨hclear, -, -⟩ := hcoherent
  obtain ⟨⟨hrun, hnone⟩, ⟨r, hraise, rfl⟩ | ⟨i, -, -, -, hkeep⟩⟩ := step_effect hstep
  · exact ⟨fun h => absurd h (stepRaises_kind_ne_none hraise), fun _ => ⟨hrun, rfl⟩,
      stepRaises_valueTooWide (s := s) hraise⟩
  · rw [State.StopCoherent, hkeep, hclear hnone]
    exact ⟨fun _ => rfl, fun h => absurd rfl h, nofun⟩

end Sys2Proof.Claims
end

section
/-!
Reset, the host's interfaces (70_reset_and_hazards.md) and the memory controller's write (20_memory.md R43, R45).
-/
namespace Sys2Proof.Machine

/-! ### Reset -/

theorem resetFrom_reg (l : Launch) {k : Nat} (h : k < 7) :
    (State.resetFrom l).reg ⟨k, by omega⟩ = l.regInit[k] :=
  Vector.getElem_push_lt h

@[simp] theorem resetFrom_SP (l : Launch) : (State.resetFrom l).SP = 0xF4 := Vector.getElem_push_eq

theorem resetFrom_regsInRange {l : Launch} (h : l.wf) : (State.resetFrom l).RegsInRange := by
  intro i
  rcases Nat.lt_or_ge i 7 with hi | hi
  · exact (resetFrom_reg l hi).trans_lt (h ⟨i, hi⟩)
  · have hsp : i = spIx := Fin.ext (by show (i : Nat) = 7; omega)
    have hbyte : 0xF4 < 2 ^ (State.resetFrom l).W := lt_of_lt_of_le (by decide) l.params.byte_lt_pow_W
    exact hsp ▸ (resetFrom_SP l).trans_lt hbyte

theorem resetFrom_wf {l : Launch} (h : l.wf) : (State.resetFrom l).Wf :=
  ⟨resetFrom_regsInRange h, Nat.two_pow_pos _, Nat.two_pow_pos _, Nat.two_pow_pos _, Memory.wf_nil, nofun⟩

theorem resetFrom_stopCoherent (l : Launch) : (State.resetFrom l).StopCoherent :=
  ⟨fun _ => rfl, fun h => absurd rfl h, nofun⟩

theorem resetFrom_enabled (l : Launch) : Claims.Enabled (State.resetFrom l) := ⟨rfl, rfl⟩

/-! ### The load interface -/

variable {s : State}

theorem loadWrite_inside {a : Nat} (v : Byte) (h : a < memSize) :
    s.loadWrite a v = .loaded { s with mem := s.mem.write a v } := by
  rw [State.loadWrite, if_pos h]

theorem loadWrite_outside {a : Nat} (v : Byte) (h : memSize ≤ a) : s.loadWrite a v = .outOfBounds a := by
  rw [State.loadWrite, if_neg (Nat.not_lt.2 h)]

/-- What `t` holds after the bytes of an image were placed in `s` from an address on: the image there, every other byte and
every other field as in `s`. -/
structure ImagePlaced (s : State) (a : Nat) (image : List Byte) (t : State) : Prop where
  inside : ∀ (k : Nat) (h : k < image.length), t.mem.read (a + k) = image[k]
  outside : ∀ b, b < a ∨ a + image.length ≤ b → t.mem.read b = s.mem.read b
  canonical : t.mem.wf
  fields : { t with mem := s.mem } = s

/-- One byte in front of an image: the rest is placed from the next address on, and does not touch it. -/
theorem ImagePlaced.cons {a : Nat} {v : Byte} {vs : List Byte} {t : State} (hm : s.mem.wf)
    (h : ImagePlaced { s with mem := s.mem.write a v } (a + 1) vs t) : ImagePlaced s a (v :: vs) t where
  inside := by
    intro k hk
    cases k with
    | zero =>
      rw [Nat.add_zero, h.outside a (.inl (Nat.lt_succ_self a)), Memory.read_write a v a hm, if_pos rfl]
      rfl
    | succ k =>
      rw [show a + (k + 1) = a + 1 + k by omega, h.inside k (Nat.lt_of_succ_lt_succ hk)]
      rfl
  outside := by
    intro b hb
    rw [List.length_cons] at hb
    rw [h.outside b (by omega), Memory.read_write a v b hm, if_neg (by omega)]
  canonical := h.canonical
  fields := congrArg (fun u : State => { u with mem := s.mem }) h.fields

/-- An image that ends within memory is loaded whole. -/
theorem loadImage_placed {a : Nat} {image : List Byte} (hm : s.mem.wf) (hfit : a + image.length ≤ memSize) :
    ∃ t, s.loadImage a image = .loaded t ∧ ImagePlaced s a image t := by
  induction image generalizing s a with
  | nil => exact ⟨s, rfl, ⟨nofun, fun _ _ => rfl, hm, rfl⟩⟩
  | cons v vs ih =>
    rw [List.length_cons] at hfit
    have ha : a < memSize := by omega
    obtain ⟨t, ht, hplaced⟩ := ih (s := { s with mem := s.mem.write a v }) (a := a + 1) (Memory.write_wf v ha hm)
      (by omega)
    refine ⟨t, ?_, hplaced.cons hm⟩
    rw [State.loadImage, loadWrite_inside v ha]
    exact ht

/-! ### The trace port and the status outputs -/

/-- The trace port shows the bytes of the addresses that are in memory (70_reset_and_hazards.md R247). -/
theorem snapshot_bytes (s : State) :
    s.snapshot.bytes = (if s.pc < 256 then [s.mem.read s.pc] else []) ++
      ((if s.pc < 255 then [s.mem.read (s.pc + 1)] else []) ++
        if s.pc < 254 then [s.mem.read (s.pc + 2)] else []) := by
  have h1 : s.pc + 1 < memSize ↔ s.pc < 255 := by unfold memSize; omega
  have h2 : s.pc + 2 < memSize ↔ s.pc < 254 := by unfold memSize; omega
  have h0 : s.pc < memSize ↔ s.pc < 256 := Iff.rfl
  simp only [State.snapshot, List.filter_cons, List.filter_nil, decide_eq_true_eq, h0, h1, h2]
  split_ifs <;> rfl

theorem code_eq_zero_iff {k : FaultKind} : k.code = 0 ↔ k = .none := by
  cases k <;> decide

end Sys2Proof.Machine

namespace Sys2Proof.Claims

open Sys2Proof.Machine

/-- Settles O15: the launch of `State.reset` is one with W-bit register values. -/
theorem resetStatesMeetTheInvariants : Obligations.ResetStatesMeetTheInvariants := by
  have hreset : ∀ l : Launch, l.wf →
      (State.resetFrom l).Wf ∧ (State.resetFrom l).StopCoherent ∧ Enabled (State.resetFrom l) :=
    fun l hl => ⟨resetFrom_wf hl, resetFrom_stopCoherent l, resetFrom_enabled l⟩
  have hstandard : Launch.standard.wf := by decide
  exact ⟨hreset _ hstandard, hreset⟩

/-- Settles O16: SP stands behind the seven initial values, and every other field is written as it stands. -/
theorem resetLeavesTheRuleValues : Obligations.ResetLeavesTheRuleValues :=
  fun l => ⟨resetFrom_SP l, fun _ hk => resetFrom_reg l hk, rfl, rfl, rfl, rfl, rfl, rfl⟩

/-- Settles O17, by induction on the image (`loadImage_placed`). -/
theorem bootPlacesTheImageFromAddressZero : Obligations.BootPlacesTheImageFromAddressZero := by
  intro l image hlen
  obtain ⟨t, ht, hplaced⟩ := loadImage_placed (s := State.resetFrom l) (a := 0) Memory.wf_nil
    ((Nat.zero_add _).trans_le hlen)
  refine ⟨t, ht, fun k hk => ?inside, fun k hk => ?outside, hplaced.canonical, hplaced.fields⟩
  case inside =>
    have h := hplaced.inside k hk
    rwa [Nat.zero_add] at h
  case outside => exact hplaced.outside k (.inr ((Nat.zero_add _).trans_le hk))

/-- Settles O18, by the two answers of the loader's write. -/
theorem loadWriteIsBoundsChecked : Obligations.LoadWriteIsBoundsChecked := by
  intro s a v hm
  refine ⟨fun ha => ⟨_, loadWrite_inside v ha, ?written, fun b hb => ?kept, rfl⟩, fun ha => loadWrite_outside v ha⟩
  case written => exact (Memory.read_write a v a hm).trans (if_pos rfl)
  case kept => exact (Memory.read_write a v b hm).trans (if_neg hb)

/-- Settles O19, by which of the three addresses are in memory. -/
theorem tracePortShowsUpToThreeBytes : Obligations.TracePortShowsUpToThreeBytes := by
  intro s
  rw [snapshot_bytes]
  refine ⟨rfl, rfl, fun h => ?three, fun h => ?two, fun h => ?one, fun h => ?none⟩
  case three => rw [if_pos (by omega), if_pos (by omega), if_pos (by omega)]; rfl
  case two => rw [h]; rfl
  case one => rw [h]; rfl
  case none => rw [if_neg (by omega), if_neg (by omega), if_neg (by omega)]; rfl

/-- Settles O20: without a fault the stop is `running = 0`; with one, coherence gives `running = 1` and the `pc`. -/
theorem statusOutputsTellTheStopsApart : Obligations.StatusOutputsTellTheStopsApart := by
  intro s hcoherent hstop
  obtain ⟨-, hentered, -⟩ := hcoherent
  by_cases hk : s.fault.kind = .none
  · have hrun : s.running = false := by
      cases h : s.running with
      | false => rfl
      | true => exact absurd ⟨h, hk⟩ hstop
    exact .inl ⟨hrun, code_eq_zero_iff.2 hk, by simp [State.halted, hrun, hk], by simp [State.faulted, hk]⟩
  · obtain ⟨hrun, hpc⟩ := hentered hk
    exact .inr ⟨hrun, mt code_eq_zero_iff.1 hk, hpc, by simp [State.halted, hk], by simp [State.faulted, hk]⟩

/-- Settles O58, by the three answers of `MemWrite` in the order of its tests. -/
theorem memoryWriteChecksAddressThenWidth : Obligations.MemoryWriteChecksAddressThenWidth := by
  intro s a v hm
  refine ⟨fun ha => memWrite_bad ha, fun ha hv hw => memWrite_wide ha hv hw,
    fun ha hv => ⟨_, memWrite_ok ha hv, ?written, fun b hb => ?kept, Memory.write_wf _ ha hm, rfl⟩⟩
  case written =>
    rw [Memory.read_write a _ a hm, if_pos rfl]
    exact BitVec.toNat_ofNat v 8
  case kept => exact (Memory.read_write a _ b hm).trans (if_neg hb)

end Sys2Proof.Claims
end

section
/-!
Register operands of 8 or more (30_encoding.md R66, R67), on every instruction that has a register operand.
-/
namespace Sys2Proof.Machine

variable {ra rb v : Byte}

theorem namesRegister_eq_false : namesRegister v = false ↔ 8 ≤ v.toNat := by
  rw [namesRegister, decide_eq_false_iff_not, Nat.not_lt]

/-- The first bad operand of one. -/
theorem firstBad_one (h : [ra].find? (fun w => !namesRegister w) = some v) : v = ra ∧ 8 ≤ ra.toNat := by
  rw [List.find?_cons] at h
  cases hbad : namesRegister ra with
  | true => simp [hbad] at h
  | false =>
    rw [hbad] at h
    cases h
    exact ⟨rfl, namesRegister_eq_false.1 hbad⟩

/-- The first bad operand of two: operand_a, or operand_b where operand_a names a register. -/
theorem firstBad_two (h : [ra, rb].find? (fun w => !namesRegister w) = some v) :
    (v = ra ∧ 8 ≤ ra.toNat) ∨ (ra.toNat < 8 ∧ v = rb ∧ 8 ≤ rb.toNat) := by
  rw [List.find?_cons] at h
  cases hbad : namesRegister ra with
  | true =>
    rw [hbad] at h
    exact .inr ⟨of_decide_eq_true hbad, firstBad_one h⟩
  | false =>
    rw [hbad] at h
    cases h
    exact .inl ⟨rfl, namesRegister_eq_false.1 hbad⟩

end Sys2Proof.Machine

namespace Sys2Proof.Claims

open Sys2Proof.Machine

/-- An instruction that decodes its one register operand before anything else. -/
theorem badOperandFaults_of_sequenced {mk : Byte → Instr} {rest : State → RegIx → Result State}
    (hexec : ∀ ra s, exec (mk ra) s = sequenced .f1 s (regOperand ra >>= rest s)) : BadOperandFaults mk := by
  intro s ra ha
  rw [TakesFault, hexec, regOperand_bad ha]
  rfl

/-- An instruction that decodes its two register operands before anything else, operand_a first. -/
theorem badOperandsFault_of_sequenced {mk : Byte → Byte → Instr} {rest : State → RegIx → RegIx → Result State}
    (hexec : ∀ ra rb s, exec (mk ra rb) s = sequenced .f2 s (regOperand ra >>= fun a => regOperand rb >>= rest s a)) :
    BadOperandsFault mk := by
  intro s ra rb
  refine ⟨fun ha => ?operandA, fun ha hb => ?operandB⟩
  case operandA =>
    rw [TakesFault, hexec, regOperand_bad ha]
    rfl
  case operandB =>
    rw [TakesFault, hexec, regOperand_ok ha, regOperand_bad hb]
    rfl

theorem takesFault_of_firstBad_one {mk : Byte → Instr} {s : State} {ra v : Byte} (hmk : BadOperandFaults mk)
    (h : [ra].find? (fun w => !namesRegister w) = some v) : TakesFault (mk ra) s .outOfBounds v.toNat := by
  obtain ⟨rfl, ha⟩ := firstBad_one h
  exact hmk s _ ha

theorem takesFault_of_firstBad_two {mk : Byte → Byte → Instr} {s : State} {ra rb v : Byte} (hmk : BadOperandsFault mk)
    (h : [ra, rb].find? (fun w => !namesRegister w) = some v) : TakesFault (mk ra rb) s .outOfBounds v.toNat := by
  obtain ⟨rfl, ha⟩ | ⟨ha, rfl, hb⟩ := firstBad_two h
  · exact (hmk s _ _).1 ha
  · exact (hmk s _ _).2 ha hb

theorem badOperandFaults_call : BadOperandFaults .call := by
  intro s ra ha
  rw [TakesFault, exec, execCall, regOperand_bad ha]
  rfl

/-- Settles O22, by the shapes of the instructions: each decodes its register operands before anything else, in order. -/
theorem firstBadRegisterOperandFaults : Obligations.FirstBadRegisterOperandFaults := by
  intro i s v hbad
  cases i with
  | hlt | ret => nomatch hbad
  | add | sub | mult | div | mod | cmp | and | or | xor | shl | shr | ld =>
    exact takesFault_of_firstBad_two (badOperandsFault_of_sequenced fun _ _ _ => rfl) hbad
  | inc | dec | not | prn | push | pop =>
    exact takesFault_of_firstBad_one (badOperandFaults_of_sequenced fun _ _ => rfl) hbad
  | ldi ra imm => exact takesFault_of_firstBad_one (mk := fun ra => .ldi ra imm) (fun _ _ ha => exec_ldi_bad ha) hbad
  | call => exact takesFault_of_firstBad_one badOperandFaults_call hbad
  | jmp => exact takesFault_of_firstBad_one (badOperandFaults_of_jumpIf (taken := (fun _ => true)) fun _ _ => rfl) hbad
  | jeq => exact takesFault_of_firstBad_one (badOperandFaults_of_jumpIf (taken := Flags.equal) fun _ _ => rfl) hbad
  | jne => exact takesFault_of_firstBad_one (badOperandFaults_of_jumpIf (taken := Flags.notEqual) fun _ _ => rfl) hbad
  | jgt => exact takesFault_of_firstBad_one (badOperandFaults_of_jumpIf (taken := Flags.greater) fun _ _ => rfl) hbad
  | jlt => exact takesFault_of_firstBad_one (badOperandFaults_of_jumpIf (taken := Flags.less) fun _ _ => rfl) hbad
  | jle => exact takesFault_of_firstBad_one (badOperandFaults_of_jumpIf (taken := Flags.lessOrEqual) fun _ _ => rfl) hbad
  | jge => exact takesFault_of_firstBad_one (badOperandFaults_of_jumpIf (taken := Flags.greaterOrEqual) fun _ _ => rfl) hbad

end Sys2Proof.Claims
end

section
/-!
The ALU's rules (41_alu.md R103 to R113), and HLT, LD and PRN (42_load_output_halt.md).
-/
namespace Sys2Proof.Machine

/-! ### The functions within W bits -/

variable {W p q : Nat}

theorem truncW_aluDiv (q : Nat) (hp : p < 2 ^ W) : truncW W (aluDiv W p q) = p / q :=
  truncW_of_lt ((Nat.div_le_self p q).trans_lt hp)

theorem truncW_aluMod (q : Nat) (hp : p < 2 ^ W) : truncW W (aluMod W p q) = p % q :=
  truncW_of_lt ((Nat.mod_le p q).trans_lt hp)

theorem truncW_aluAnd (p : Nat) (hq : q < 2 ^ W) : truncW W (aluAnd W p q) = p &&& q :=
  truncW_of_lt (Nat.and_lt_two_pow p hq)

theorem truncW_aluShr (q : Nat) (hp : p < 2 ^ W) : truncW W (aluShr W p q) = p / 2 ^ q := by
  rw [aluShr_eq q hp]
  exact truncW_of_lt ((Nat.div_le_self p _).trans_lt hp)

/-- The largest W-bit value wraps to 0 (R105). -/
theorem truncW_aluInc (hp : p < 2 ^ W) : truncW W (aluInc W p) = if p = 2 ^ W - 1 then 0 else p + 1 := by
  rw [aluInc]
  split
  · next h =>
    rw [show p + 1 = 2 ^ W by omega]
    exact Nat.mod_self _
  · exact truncW_of_lt (by omega)

theorem truncW_aluDec (hp : p < 2 ^ W) : truncW W (aluDec W p) = if p = 0 then 2 ^ W - 1 else p - 1 := by
  rw [aluDec, truncW_of_lt (truncIntW_lt W _), truncIntW_pred hp]

theorem truncW_aluNot (hp : p < 2 ^ W) : truncW W (aluNot W p) = 2 ^ W - 1 - p :=
  truncW_of_lt (by unfold aluNot; omega)

/-- Exactly one of the three comparisons of two numbers holds (R113). -/
theorem ofCompare_exactly_one (p q : Nat) :
    (Flags.ofCompare p q).E.toNat + (Flags.ofCompare p q).G.toNat + (Flags.ofCompare p q).L.toNat = 1 := by
  rcases Nat.lt_trichotomy p q with h | h | h
  · simp [Flags.ofCompare, h, h.ne, h.le]
  · simp [Flags.ofCompare, h]
  · simp [Flags.ofCompare, h, h.ne', h.le]

/-! ### The instructions of their own shape -/

variable {s : State} {ra rb : Byte}

theorem exec_cmp_ok (ha : ra.toNat < 8) (hb : rb.toNat < 8) :
    exec (.cmp ra rb) s =
      .next (State.advance { s with fl := Flags.ofCompare (s.reg ⟨ra.toNat, ha⟩) (s.reg ⟨rb.toNat, hb⟩) } .f2) := by
  rw [exec, execCmp, regOperand_ok ha, regOperand_ok hb]
  rfl

theorem exec_prn_ok (ha : ra.toNat < 8) :
    exec (.prn ra) s = .next ((s.emit (s.reg ⟨ra.toNat, ha⟩)).advance .f1) := by
  rw [exec, execPrn, regOperand_ok ha]
  rfl

end Sys2Proof.Machine

namespace Sys2Proof.Claims

open Sys2Proof.Machine

/-- An instruction that runs `aluDivide f` meets the rule of every `res` that `f` agrees with on W-bit values. -/
theorem divideRule_of_aluDivide {mk : Byte → Byte → Instr} {op : Byte} {f : Nat → Nat → Nat → Nat}
    {res : Nat → Nat → Nat} (henc : ∀ ra rb, encode (mk ra rb) = [op, ra, rb])
    (hexec : ∀ ra rb s, exec (mk ra rb) s = sequenced .f2 s (aluDivide f ra rb s))
    (hres : ∀ W p q, p < 2 ^ W → truncW W (f W p q) = res p q) : DivideRule mk op res := by
  refine ⟨henc, badOperandsFault_of_sequenced hexec, fun s ra rb ha hb hrange => ⟨fun h0 => ?zero, fun h0 => ?divides⟩⟩
  case zero =>
    rw [TakesFault, hexec, aluDivide_zero ha hb h0]
    rfl
  case divides =>
    refine ⟨_, by rw [hexec, aluDivide_ok ha hb h0, sequenced_ok], ?result, rfl, onlyRegs_setReg_advance s _ _ _⟩
    rw [advance_reg, reg_setReg_same, hres _ _ _ (hrange _)]

/-- An instruction that runs `aluUnary f` meets the rule of every `res` that `f` agrees with on W-bit values. -/
theorem unaryRule_of_aluUnary {mk : Byte → Instr} {op : Byte} {f res : Nat → Nat → Nat}
    (henc : ∀ ra, encode (mk ra) = [op, ra]) (hexec : ∀ ra s, exec (mk ra) s = sequenced .f1 s (aluUnary f ra s))
    (hres : ∀ W p, p < 2 ^ W → truncW W (f W p) = res W p) : UnaryRule mk op res := by
  refine ⟨henc, badOperandFaults_of_sequenced hexec, fun s ra ha hrange => ?_⟩
  refine ⟨_, by rw [hexec, aluUnary_ok ha, sequenced_ok], ?result, rfl, onlyRegs_setReg_advance s _ _ _⟩
  case result => rw [advance_reg, reg_setReg_same, hres _ _ (hrange _)]

/-- Settles O36: quotient and remainder are at most the dividend, so the register write keeps them whole. -/
theorem divideAndRemainderRules : Obligations.DivideAndRemainderRules := by
  refine ⟨?div, ?mod⟩
  case div =>
    exact divideRule_of_aluDivide (f := aluDiv) (fun _ _ => rfl) (fun _ _ _ => rfl) fun _ _ q hp => truncW_aluDiv q hp
  case mod =>
    exact divideRule_of_aluDivide (f := aluMod) (fun _ _ => rfl) (fun _ _ _ => rfl) fun _ _ q hp => truncW_aluMod q hp

/-- Settles O37: one more and one less modulo `2^W`, with the two wraps. -/
theorem incrementAndDecrementRules : Obligations.IncrementAndDecrementRules := by
  refine ⟨?inc, ?dec⟩
  case inc => exact unaryRule_of_aluUnary (f := aluInc) (fun _ => rfl) (fun _ _ => rfl) fun _ _ => truncW_aluInc
  case dec => exact unaryRule_of_aluUnary (f := aluDec) (fun _ => rfl) (fun _ _ => rfl) fun _ _ => truncW_aluDec

/-- Settles O38. -/
theorem bitwiseAndRule : Obligations.BitwiseAndRule :=
  binaryRule_of_aluBinary (f := aluAnd) (fun _ _ => rfl) (fun _ _ _ => rfl) fun _ p _ _ hq => truncW_aluAnd p hq

/-- Settles O40. -/
theorem bitwiseNotRule : Obligations.BitwiseNotRule :=
  unaryRule_of_aluUnary (f := aluNot) (fun _ => rfl) (fun _ _ => rfl) fun _ _ => truncW_aluNot

/-- Settles O41: the shortcut for an amount of W or more agrees with the arithmetic modulo `2^W`. -/
theorem shiftRules : Obligations.ShiftRules := by
  refine ⟨?shl, ?shr⟩
  case shl =>
    exact binaryRule_of_aluBinary (f := aluShl) (fun _ _ => rfl) (fun _ _ _ => rfl) fun W p q _ _ => truncW_aluShl W p q
  case shr =>
    exact binaryRule_of_aluBinary (f := aluShr) (fun _ _ => rfl) (fun _ _ _ => rfl) fun _ _ q hp _ => truncW_aluShr q hp

/-- Settles O42: the three flags are the three comparisons. -/
theorem compareSetsExactlyOneFlag : Obligations.CompareSetsExactlyOneFlag := by
  refine ⟨fun _ _ => rfl, badOperandsFault_of_sequenced fun _ _ _ => rfl, fun s ra rb ha hb => ?completes⟩
  case completes =>
    exact ⟨_, exec_cmp_ok ha hb, decide_eq_true_iff, decide_eq_true_iff, decide_eq_true_iff, ofCompare_exactly_one _ _,
      rfl, fun _ _ => rfl, fun _ => rfl, ⟨rfl, rfl, rfl⟩, rfl⟩

/-- Settles O43: HLT's one next state, and the stop of a state with `running = 0`. -/
theorem haltRule : Obligations.HaltRule :=
  ⟨rfl, fun s => ⟨_, exec_hlt s, rfl, rfl, fun _ _ => rfl, rfl, fun _ => rfl, rfl, rfl, rfl,
    (stoppedEngineTakesNoStep _).1 rfl⟩⟩

/-- Settles O45: LD has the shape of a two-register ALU instruction whose function is the second value. -/
theorem loadRegisterRule : Obligations.LoadRegisterRule :=
  binaryRule_of_aluBinary (f := fun _ _ q => q) (fun _ _ => rfl) (fun _ _ _ => rfl) fun _ _ _ _ hq => truncW_of_lt hq

/-- Settles O46. -/
theorem printRule : Obligations.PrintRule := by
  refine ⟨fun _ => rfl, badOperandFaults_of_sequenced fun _ _ => rfl, fun s ra ha => ?completes⟩
  case completes =>
    exact ⟨_, exec_prn_ok ha, rfl, rfl, fun _ _ => rfl, rfl, fun _ => rfl, ⟨rfl, rfl, rfl⟩⟩

/-- Settles O55: each order jump tests its flags as the rule writes them. -/
theorem orderJumpRules : Obligations.OrderJumpRules := by
  refine ⟨?jgt, ?jlt, ?jle, ?jge⟩
  case jgt => exact condJumpRule_of_jumpIf (taken := Flags.greater) (fun _ => rfl) (fun _ _ => rfl) fun _ => Iff.rfl
  case jlt => exact condJumpRule_of_jumpIf (taken := Flags.less) (fun _ => rfl) (fun _ _ => rfl) fun _ => Iff.rfl
  case jle =>
    exact condJumpRule_of_jumpIf (taken := Flags.lessOrEqual) (fun _ => rfl) (fun _ _ => rfl) fun f =>
      Iff.of_eq (Bool.or_eq_true f.L f.E)
  case jge =>
    exact condJumpRule_of_jumpIf (taken := Flags.greaterOrEqual) (fun _ => rfl) (fun _ _ => rfl) fun f =>
      Iff.of_eq (Bool.or_eq_true f.G f.E)

end Sys2Proof.Claims
end

section
/-!
PUSH, POP, CALL and RET (43_stack.md R159 to R163, 44_control_transfer.md R180, R181, R190), and what a fetch sees after a
store (20_memory.md R56).
-/
namespace Sys2Proof.Machine

open Sys2Proof.Claims (pushAddress pushedValue byteAfterStore)

/-- The state after the two statements that PUSH and CALL share (R159): SP decremented, and the low byte of `v` stored at
the new SP. -/
def State.pushed (s : State) (v : Nat) : State :=
  { s.decSP with mem := s.mem.write s.decSP.SP (BitVec.ofNat 8 v) }

/-- The state after the two statements of POP (R161): the byte at SP is written to the register, and SP is incremented. -/
def State.popped (s : State) (a : RegIx) : State := (s.setReg a (s.mem.read s.SP).toNat).incSP

variable {s t : State} {ra : Byte} {v : Nat}

/-! ### The decremented SP -/

@[simp] theorem decSP_SP_eq_pushAddress (s : State) : s.decSP.SP = pushAddress s := by
  have hone : 1 < 2 ^ s.W := lt_of_lt_of_le (by decide) s.params.byte_lt_pow_W
  calc s.decSP.SP
      = truncW s.W (truncIntW s.W ((s.SP : Int) - (1 : Nat))) := reg_setReg_same s spIx _
    _ = truncIntW s.W ((s.SP : Int) - (1 : Nat)) := truncW_of_lt (truncIntW_lt s.W _)
    _ = pushAddress s := truncIntW_sub s.SP hone

theorem decSP_reg (s : State) (a : RegIx) : s.decSP.reg a = pushedValue s a := by
  unfold pushedValue
  split
  · next h => exact h ▸ decSP_SP_eq_pushAddress s
  · next h => exact decSP_reg_other s h

theorem pushAddress_of_pos (h : 0 < s.SP) (hlt : s.SP < 2 ^ s.W) : pushAddress s = s.SP - 1 := by
  rw [pushAddress, show s.SP + 2 ^ s.W - 1 = s.SP - 1 + 2 ^ s.W by omega, Nat.add_mod_right,
    Nat.mod_eq_of_lt (by omega)]

/-- The increment undoes the decrement, over the wrap too. -/
theorem truncW_pushAddress_succ (h : s.SP < 2 ^ s.W) : truncW s.W (pushAddress s + 1) = s.SP := by
  rw [truncW, pushAddress, Nat.mod_add_mod, show s.SP + 2 ^ s.W - 1 + 1 = s.SP + 2 ^ s.W by omega, Nat.add_mod_right,
    Nat.mod_eq_of_lt h]

/-- A register that holds a byte pushes a byte, r7 too where the new SP is in memory. -/
theorem pushedValue_lt {a : RegIx} (hsp : pushAddress s < 256) (h : s.reg a < 256) : pushedValue s a < 256 := by
  unfold pushedValue
  split
  · exact hsp
  · exact h

/-! ### The state after a store -/

@[simp] theorem pushed_SP (s : State) (v : Nat) : (s.pushed v).SP = pushAddress s := decSP_SP_eq_pushAddress s

theorem pushed_reg (s : State) (v : Nat) (a : RegIx) : (s.pushed v).reg a = pushedValue s a := decSP_reg s a

theorem pushed_regsInRange (h : s.RegsInRange) (v : Nat) : (s.pushed v).RegsInRange := decSP_regsInRange h

theorem pushed_read (hm : s.mem.wf) (v b : Nat) : (s.pushed v).mem.read b = byteAfterStore s v b := by
  rw [State.pushed, Memory.read_write _ _ b hm, decSP_SP_eq_pushAddress, byteAfterStore]

theorem byteAfterStore_same (s : State) (v : Nat) : byteAfterStore s v (pushAddress s) = BitVec.ofNat 8 v := if_pos rfl

theorem byteAfterStore_other {b : Nat} (h : b ≠ pushAddress s) : byteAfterStore s v b = s.mem.read b := if_neg h

/-- The byte at the new SP is the pushed value modulo 256. -/
theorem pushed_byte (hm : s.mem.wf) (v : Nat) : ((s.pushed v).mem.read (pushAddress s)).toNat = v % 256 := by
  rw [pushed_read hm, byteAfterStore_same]
  exact BitVec.toNat_ofNat v 8

/-! ### The state after a pop -/

theorem truncW_byte (s : State) (b : Byte) : truncW s.W b.toNat = b.toNat := truncW_immOperand s.params b

theorem popped_SP (s : State) (a : RegIx) :
    (s.popped a).SP = truncW s.W ((if a = spIx then (s.mem.read s.SP).toNat else s.SP) + 1) := by
  have hsp : (s.setReg a (s.mem.read s.SP).toNat).SP = if a = spIx then (s.mem.read s.SP).toNat else s.SP := by
    rw [State.SP, reg_setReg, truncW_byte]
    exact if_congr eq_comm rfl rfl
  rw [State.popped, incSP_SP, hsp, setReg_W]

theorem popped_reg_same {a : RegIx} (h : a ≠ spIx) : (s.popped a).reg a = (s.mem.read s.SP).toNat := by
  rw [State.popped, incSP_reg_other _ h, reg_setReg_same, truncW_byte]

theorem popped_reg_other {a i : RegIx} (hi : i ≠ spIx) (ha : i ≠ a) : (s.popped a).reg i = s.reg i := by
  rw [State.popped, incSP_reg_other _ hi, reg_setReg_other _ _ ha]

/-- A pop of the register just pushed restores every register: the popped byte is the pushed value, and SP's increment
undoes its decrement. For r7 the popped byte is the decremented SP itself. -/
theorem popped_pushed_reg {a : RegIx} (hrange : s.RegsInRange) (hm : s.mem.wf) (hsp : pushAddress s < 256)
    (hreg : s.reg a < 256) (i : RegIx) : ((s.pushed (pushedValue s a)).popped a).reg i = s.reg i := by
  have hbyte : ((s.pushed (pushedValue s a)).mem.read (s.pushed (pushedValue s a)).SP).toNat = pushedValue s a := by
    rw [pushed_SP, pushed_byte hm, Nat.mod_eq_of_lt (pushedValue_lt hsp hreg)]
  by_cases hi : i = spIx
  · have haddr : (if a = spIx then pushedValue s a else pushAddress s) = pushAddress s := by
      split
      · next ha => rw [pushedValue, if_pos ha]
      · rfl
    subst hi
    show ((s.pushed (pushedValue s a)).popped a).SP = s.SP
    rw [popped_SP, hbyte, pushed_SP, haddr]
    exact truncW_pushAddress_succ (hrange spIx)
  · by_cases ha : i = a
    · subst ha
      rw [popped_reg_same hi, hbyte, pushedValue, if_neg hi]
    · rw [popped_reg_other hi ha, pushed_reg, pushedValue, if_neg hi]

/-! ### What the instructions answer -/

theorem storeAtSP_ok (hsp : pushAddress s < 256) (hv : v < 2 ^ 8 ∨ s.params.wideStore = .truncate) :
    s.decSP.storeAtSP v = .ok (s.pushed v) :=
  memWrite_ok (s := s.decSP) (decSP_SP_eq_pushAddress s ▸ hsp) hv

theorem storeAtSP_outside (hsp : 256 ≤ pushAddress s) : s.decSP.storeAtSP v = raise .outOfBounds (pushAddress s) := by
  rw [State.storeAtSP, decSP_SP_eq_pushAddress, memWrite_bad hsp]

theorem storeAtSP_wide (hsp : pushAddress s < 256) (hv : 2 ^ 8 ≤ v) (hw : s.params.wideStore = .fault) :
    s.decSP.storeAtSP v = raise .valueTooWide (pushAddress s) := by
  rw [State.storeAtSP, decSP_SP_eq_pushAddress]
  exact memWrite_wide (s := s.decSP) hsp hv hw

/-- PUSH is the store of its register's value, after the operand's decode. -/
theorem exec_push (ha : ra.toNat < 8) :
    exec (.push ra) s = sequenced .f1 s (s.decSP.storeAtSP (pushedValue s ⟨ra.toNat, ha⟩)) := by
  rw [exec, execPush, regOperand_ok ha, ← decSP_reg]
  rfl

theorem exec_push_ok (ha : ra.toNat < 8) (hsp : pushAddress s < 256)
    (hv : pushedValue s ⟨ra.toNat, ha⟩ < 2 ^ 8 ∨ s.params.wideStore = .truncate) :
    exec (.push ra) s = .next ((s.pushed (pushedValue s ⟨ra.toNat, ha⟩)).advance .f1) := by
  rw [exec_push ha, storeAtSP_ok hsp hv, sequenced_ok]

theorem exec_call_ok (ha : ra.toNat < 8) (hsp : pushAddress s < 256)
    (hv : s.pc + 2 < 2 ^ 8 ∨ s.params.wideStore = .truncate) :
    exec (.call ra) s = .next { s.pushed (s.pc + 2) with pc := pushedValue s ⟨ra.toNat, ha⟩ } := by
  rw [exec, execCall, regOperand_ok ha, ← pushed_reg s (s.pc + 2)]
  simp only [storeAtSP_ok hsp hv]
  rfl

theorem exec_call_outside (ha : ra.toNat < 8) (hsp : 256 ≤ pushAddress s) :
    exec (.call ra) s = .next (s.enterFault { kind := .outOfBounds, info := pushAddress s }) := by
  rw [exec, execCall, regOperand_ok ha]
  simp only [storeAtSP_outside hsp]
  rfl

theorem exec_pop_ok (ha : ra.toNat < 8) (hsp : s.SP < memSize) :
    exec (.pop ra) s = .next ((s.popped ⟨ra.toNat, ha⟩).advance .f1) := by
  rw [exec, execPop, regOperand_ok ha, loadAtSP_ok hsp]
  rfl

theorem exec_pop_underflow (ha : ra.toNat < 8) (hsp : memSize ≤ s.SP) :
    exec (.pop ra) s = .next (s.enterFault { kind := .stackUnderflow, info := s.SP }) := by
  rw [exec, execPop, regOperand_ok ha, loadAtSP_bad hsp]
  rfl

theorem exec_ret_ok (hsp : s.SP < memSize) :
    exec .ret s = .next (State.incSP { s with pc := (s.mem.read s.SP).toNat }) := by
  rw [exec, execRet, loadAtSP_ok hsp]
  rfl

theorem exec_ret_underflow (hsp : memSize ≤ s.SP) :
    exec .ret s = .next (s.enterFault { kind := .stackUnderflow, info := s.SP }) := by
  rw [exec, execRet, loadAtSP_bad hsp]
  rfl

/-- A PUSH that completes has the one next state of `exec_push_ok`. -/
theorem pushed_of_exec_push (h : exec (.push ra) s = .next t) (ht : t.fault.kind = .none) :
    ∃ ha : ra.toNat < 8, pushAddress s < 256 ∧ t = (s.pushed (pushedValue s ⟨ra.toNat, ha⟩)).advance .f1 := by
  cases exec_effect h with
  | faults hr => exact absurd ht (raises_kind_ne_none hr)
  | setsRegister _ _ _ hreads => nomatch hreads
  | jumps _ _ hpcw => exact absurd hpcw (by simp [Instr.opcode, opPcw])
  | pushes _ a ha hsp =>
    refine ⟨ha.trans_lt a.isLt, decSP_SP_eq_pushAddress s ▸ hsp, ?_⟩
    rw [show (⟨ra.toNat, _⟩ : RegIx) = a from Fin.ext ha, ← decSP_reg]
    rfl

/-- A CALL that completes has the one next state of `exec_call_ok`. -/
theorem pushed_of_exec_call (h : exec (.call ra) s = .next t) (ht : t.fault.kind = .none) :
    ∃ ha : ra.toNat < 8, pushAddress s < 256 ∧
      t = { s.pushed (s.pc + 2) with pc := pushedValue s ⟨ra.toNat, ha⟩ } := by
  cases exec_effect h with
  | faults hr => exact absurd ht (raises_kind_ne_none hr)
  | setsRegister _ _ hpcw => exact absurd hpcw (by simp [Instr.opcode, opPcw])
  | jumps _ _ _ _ _ hcall => exact absurd rfl (hcall ra)
  | calls _ a ha hsp =>
    refine ⟨ha.trans_lt a.isLt, decSP_SP_eq_pushAddress s ▸ hsp, ?_⟩
    rw [show (⟨ra.toNat, _⟩ : RegIx) = a from Fin.ext ha, ← decSP_reg]
    rfl

end Sys2Proof.Machine

namespace Sys2Proof.Claims

open Sys2Proof.Machine

variable {s t : State} {ra : Byte} {v : Nat}

/-- A push changes SP among the registers, the byte at the new SP, and nothing else. -/
theorem pushed_regsKept (s : State) (v : Nat) : RegsKept [spIx] s (s.pushed v) := fun _ hi =>
  decSP_reg_other s (List.ne_of_not_mem_cons hi)

theorem pushed_memKept (hm : s.mem.wf) (v : Nat) : MemKeptOutside (pushAddress s) s (s.pushed v) := fun b hb =>
  (pushed_read hm v b).trans (byteAfterStore_other hb)

/-- A pop changes the register and SP, and nothing else. -/
theorem onlyRegs_popped (s : State) (a : RegIx) : OnlyRegs [a, spIx] s ((s.popped a).advance .f1) := by
  refine ⟨fun i hi => ?regs, rfl, fun _ => rfl, ⟨rfl, rfl, rfl⟩, rfl⟩
  case regs =>
    simp only [List.mem_cons, List.not_mem_nil, or_false, not_or] at hi
    exact popped_reg_other hi.2 hi.1

/-- Settles O47, by the three answers of the store at the decremented SP. -/
theorem pushRule : Obligations.PushRule := by
  refine ⟨fun _ => rfl, badOperandFaults_of_sequenced fun _ _ => rfl, fun s ra ha _ hm => ?_⟩
  refine ⟨fun hsp => ?outside, fun hsp hv hw => ?wide, fun hsp hv => ?completes⟩
  case outside =>
    rw [TakesFault, exec_push ha, storeAtSP_outside hsp]
    rfl
  case wide =>
    rw [TakesFault, exec_push ha, storeAtSP_wide hsp hv hw]
    rfl
  case completes =>
    refine ⟨_, exec_push_ok ha hsp hv, ?_⟩
    exact ⟨pushed_SP s (pushedValue s ⟨_, ha⟩), pushed_byte hm _, pushed_memKept hm _, rfl,
      pushed_regsKept s (pushedValue s ⟨_, ha⟩), rfl, ⟨rfl, rfl, rfl⟩, rfl⟩

/-- Settles O48: for r7 the write of the popped byte comes first, and its increment is the new SP. -/
theorem popRule : Obligations.PopRule := by
  refine ⟨fun _ => rfl, badOperandFaults_of_sequenced fun _ _ => rfl, fun s ra ha => ?_⟩
  refine ⟨fun hsp => exec_pop_underflow ha hsp, fun hsp =>
    ⟨_, exec_pop_ok ha hsp, fun hne => ?register, fun heq => ?stackPointer, rfl, onlyRegs_popped s _⟩⟩
  case register =>
    have hra : (⟨ra.toNat, ha⟩ : RegIx) ≠ spIx := fun h => hne (congrArg Fin.val h)
    exact ⟨popped_reg_same hra, by rw [advance_SP, popped_SP, if_neg hra, truncW]⟩
  case stackPointer =>
    have hra : (⟨ra.toNat, ha⟩ : RegIx) = spIx := Fin.ext heq
    rw [advance_SP, popped_SP, if_pos hra, truncW]

/-- Settles O51: a fetched CALL's return address is a byte, so its store has no width fault. -/
theorem callRule : Obligations.CallRule := by
  refine ⟨fun _ => rfl, badOperandFaults_call, fun s ra ha _ hm hpc => ?_⟩
  have hbyte : s.pc + 2 < 2 ^ 8 := by omega
  refine ⟨fun hsp => exec_call_outside ha hsp, fun hsp => ⟨_, exec_call_ok ha hsp (.inl hbyte), pushed_SP s (s.pc + 2),
    ?stored, pushed_memKept hm _, rfl, pushed_regsKept s (s.pc + 2), rfl, ⟨rfl, rfl, rfl⟩, rfl⟩⟩
  case stored => exact (pushed_byte hm _).trans (Nat.mod_eq_of_lt hbyte)

/-- Settles O52, by the two answers of the stack's read. -/
theorem returnRule : Obligations.ReturnRule := by
  refine ⟨rfl, fun s => ⟨fun hsp => exec_ret_underflow hsp, fun hsp => ⟨_, exec_ret_ok hsp, rfl, incSP_SP _, ?only⟩⟩⟩
  case only =>
    exact ⟨fun _ hi => incSP_reg_other _ (List.ne_of_not_mem_cons hi), rfl, fun _ => rfl, ⟨rfl, rfl, rfl⟩, rfl⟩

/-- Settles O49: the two completed instructions are `pushed` and `popped`, each with an advance by 2. -/
theorem pushThenPopRestoresTheRegisters : Obligations.PushThenPopRestoresTheRegisters := by
  intro s t u ra ha hrange hm _ hreg hpush ht hpop _
  obtain ⟨_, hsp, rfl⟩ := pushed_of_exec_push hpush ht
  rw [exec_pop_ok ha (by rw [advance_SP, pushed_SP]; exact hsp)] at hpop
  cases hpop
  exact ⟨popped_pushed_reg hrange hm hsp hreg, rfl⟩

/-- Settles O50, by induction on the number of pushes: a push keeps the register a byte and SP at most 256. -/
theorem repeatedPushLowersTheStackPointer : Obligations.RepeatedPushLowersTheStackPointer := by
  intro n
  induction n with
  | zero => exact fun s _ _ _ _ _ _ => ⟨s, rfl, rfl, rfl, rfl⟩
  | succ n ih =>
    intro s ra ha hrange hle hreg hn
    have haddr : pushAddress s = s.SP - 1 := pushAddress_of_pos (by omega) (hrange spIx)
    have hsp : pushAddress s < 256 := by omega
    have hbyte := pushedValue_lt hsp hreg
    have hpush := exec_push_ok ha hsp (.inl hbyte)
    generalize hu : (s.pushed (pushedValue s ⟨ra.toNat, ha⟩)).advance .f1 = u at hpush
    have husp : u.SP = s.SP - 1 := by rw [← hu, advance_SP, pushed_SP, haddr]
    have hupc : u.pc = s.pc + 2 := by rw [← hu]; rfl
    have hureg : u.reg ⟨ra.toNat, ha⟩ < 256 := by rw [← hu, advance_reg, pushed_reg]; exact hbyte
    have hufault : u.fault = s.fault := by rw [← hu]; rfl
    have hurange : u.RegsInRange := hu ▸ pushed_regsInRange hrange (pushedValue s ⟨_, ha⟩)
    obtain ⟨t, ht, htfault, htsp, htpc⟩ := ih u ra ha hurange (by omega) hureg (by omega)
    refine ⟨t, ?run, htfault.trans hufault, by omega, by omega⟩
    case run =>
      rw [pushTimes, hpush]
      exact ht

/-- Settles O56: RET reads the return address that CALL stored, and its increment of SP undoes CALL's decrement. -/
theorem callThenReturnComesBack : Obligations.CallThenReturnComesBack := by
  intro s t u v ra hrange hm hpc _ hcall ht hparams husp hbyte hret
  obtain ⟨ha, hsp, rfl⟩ := pushed_of_exec_call hcall ht
  have hSP : u.SP = pushAddress s := husp.trans (pushed_SP s (s.pc + 2))
  have hW : u.W = s.W := congrArg Params.W hparams
  have hpop := exec_ret_ok (s := u) (hSP ▸ hsp)
  rw [hret] at hpop
  cases hpop
  refine ⟨?pc, ?stackPointer, rfl⟩
  case pc =>
    have hread : u.mem.read (pushAddress s) = (s.pushed (s.pc + 2)).mem.read (pushAddress s) :=
      pushed_SP s (s.pc + 2) ▸ hbyte
    show (u.mem.read u.SP).toNat = s.pc + 2
    rw [hSP, hread, pushed_byte hm, Nat.mod_eq_of_lt (by omega)]
  case stackPointer =>
    rw [incSP_SP]
    show truncW u.W (u.SP + 1) = s.SP
    rw [hSP, hW, truncW_pushAddress_succ (hrange spIx)]

/-- A step goes by the bytes that memory holds, so by those that a store left. -/
theorem fetchSeesStored_of_read (h : ∀ b, t.mem.read b = byteAfterStore s v b) : FetchSeesStored s t v := by
  intro hrun hpc
  simp only [← h]
  split
  · next hd => exact step_of_dispatched_ok hrun hpc hd
  · next hd => exact step_of_dispatched_error hrun hpc hd

/-- Settles O59: memory after the PUSH or the CALL reads as `byteAfterStore` says, at the three fetched addresses too. -/
theorem fetchSeesTheByteJustPushed : Obligations.FetchSeesTheByteJustPushed := by
  intro s t ra ha _ hm _ ht
  refine ⟨fun hpush => ?push, fun hcall => ?call⟩
  case push =>
    obtain ⟨_, _, rfl⟩ := pushed_of_exec_push hpush ht
    exact fetchSeesStored_of_read (pushed_read hm _)
  case call =>
    obtain ⟨_, _, rfl⟩ := pushed_of_exec_call hcall ht
    exact fetchSeesStored_of_read (pushed_read hm _)

end Sys2Proof.Claims
end

section
/-!
Where faults come from (60_exceptions.md R211, R216), and what a step may change: flags, output, memory and registers.
-/
namespace Sys2Proof.Machine

open Sys2Proof.Claims (pushAddress writesOperandA dispatched)

variable {s t : State} {i : Instr} {r : Raise}

/-! ### The reasons for one kind of fault -/

/-- Among the reasons for a fault only a read at an SP outside memory is recorded as StackUnderflow. -/
theorem raises_stackUnderflow (h : Raises s i r) (hk : r.kind = .stackUnderflow) :
    256 ≤ s.SP ∧ (i = .ret ∨ ∃ ra : Byte, ra.toNat < 8 ∧ i = .pop ra) ∧ r.info = s.SP := by
  cases h with
  | underflow hi hsp => exact ⟨hsp, hi.symm, rfl⟩
  | badOperand | zeroDivisor | storeOutOfBounds | storeTooWide => nomatch hk

/-- RET, and POP of a register, fault at an SP outside memory. -/
theorem exec_underflow (hsp : 256 ≤ s.SP) (hi : i = .ret ∨ ∃ ra : Byte, ra.toNat < 8 ∧ i = .pop ra) :
    exec i s = .next (s.enterFault { kind := .stackUnderflow, info := s.SP }) := by
  obtain rfl | ⟨ra, ha, rfl⟩ := hi
  · exact exec_ret_underflow hsp
  · exact exec_pop_underflow ha hsp

/-- Two reasons for a fault are recorded as OutOfBounds: a bad operand, and a store outside memory. -/
theorem raises_outOfBounds (h : Raises s i r) (hk : r.kind = .outOfBounds) :
    (∃ v, v ∈ i.regOperands ∧ 8 ≤ v.toNat ∧ r.info = v.toNat) ∨
      ∃ ra, (i = .push ra ∨ i = .call ra) ∧ 256 ≤ pushAddress s ∧ r.info = pushAddress s := by
  cases h with
  | badOperand hv hbad => exact .inl ⟨_, hv, hbad, rfl⟩
  | storeOutOfBounds hi hsp =>
    rw [decSP_SP_eq_pushAddress] at hsp
    exact .inr ⟨_, hi, hsp, decSP_SP_eq_pushAddress s⟩
  | zeroDivisor | underflow | storeTooWide => nomatch hk

/-- At `W = 8` every SP is an address and every stored value is a byte. -/
theorem raises_at_eight_bits (h : Raises s i r) (hr : s.RegsInRange) (hW : s.W = 8) (hpc : s.pc ≤ 253) :
    r.kind ≠ .stackUnderflow ∧ r.kind ≠ .valueTooWide := by
  have hreg : ∀ a, s.reg a < 2 ^ 8 := fun a => hW ▸ hr a
  have hdec : ∀ a, s.decSP.reg a < 2 ^ 8 := fun a => hW ▸ decSP_regsInRange hr a
  cases h with
  | underflow _ hsp => exact absurd hsp (Nat.not_le.2 (hreg spIx))
  | storeTooWide _ hi _ hv =>
    rcases hi with ⟨-, rfl⟩ | ⟨-, rfl⟩
    · exact absurd hv (Nat.not_le.2 (hdec _))
    · omega
  | badOperand | zeroDivisor | storeOutOfBounds => exact ⟨nofun, nofun⟩

theorem stepRaises_at_eight_bits (h : StepRaises s r) (hr : s.RegsInRange) (hW : s.W = 8) :
    r.kind ≠ .stackUnderflow ∧ r.kind ≠ .valueTooWide ∧ (s.pc ≤ 253 → r.kind = .outOfBounds → r.info < 256) := by
  cases h with
  | fetch hhigh => exact ⟨nofun, nofun, fun hpc => absurd hpc (by omega)⟩
  | undefinedOpcode u => cases u <;> exact ⟨nofun, nofun, nofun⟩
  | instruction hpc _ hraise =>
    obtain ⟨hunder, hwide⟩ := raises_at_eight_bits hraise hr hW hpc
    have hinfo : r.info < 2 ^ 8 := hW ▸ raises_info_lt hraise hr
    exact ⟨hunder, hwide, fun _ _ => hinfo⟩

/-! ### What an effect may change -/

theorem effect_fl (h : Effect s i t) : t.fl = s.fl ∨ ∃ ra rb, i = .cmp ra rb := by
  cases h with
  | setsFlags ra rb => exact .inr ⟨ra, rb, rfl⟩
  | faults | setsRegister | halts | emits | pushes | pops | calls | returns | jumps => exact .inl rfl

/-- PRN has two effects: the fault entry, which emits nothing, and the emission of its register. -/
theorem effect_output (h : Effect s i t) :
    (t.output = s.output ∧ ((∃ ra, i = .prn ra) → t.fault.kind ≠ .none)) ∨
      ∃ (ra : Byte) (ha : ra.toNat < 8), i = .prn ra ∧ t.output = s.output ++ [s.reg ⟨ra.toNat, ha⟩] := by
  cases h with
  | emits ra a ha =>
    refine .inr ⟨ra, ha.trans_lt a.isLt, rfl, ?_⟩
    rw [show (⟨ra.toNat, _⟩ : RegIx) = a from Fin.ext ha]
    rfl
  | faults hr => exact .inl ⟨rfl, fun _ => raises_kind_ne_none hr⟩
  | setsRegister _ _ _ hreads =>
    refine .inl ⟨rfl, ?_⟩
    rintro ⟨ra, rfl⟩
    nomatch hreads
  | jumps _ _ hpcw =>
    refine .inl ⟨rfl, ?_⟩
    rintro ⟨ra, rfl⟩
    exact absurd hpcw (by simp [Instr.opcode, opPcw])
  | setsFlags | halts | pushes | pops | calls | returns => exact .inl ⟨rfl, nofun⟩

/-- Memory is as before, or as a store at the decremented SP left it. -/
theorem effect_mem (h : Effect s i t) :
    t.mem = s.mem ∨
      ∃ ra v, (i = .push ra ∨ i = .call ra) ∧ pushAddress s < 256 ∧ t.mem = (s.pushed v).mem := by
  cases h with
  | pushes ra _ _ hsp => exact .inr ⟨ra, _, .inl rfl, decSP_SP_eq_pushAddress s ▸ hsp, rfl⟩
  | calls ra _ _ hsp => exact .inr ⟨ra, _, .inr rfl, decSP_SP_eq_pushAddress s ▸ hsp, rfl⟩
  | faults | setsRegister | setsFlags | halts | emits | pops | returns | jumps => exact .inl rfl

/-- The instructions that `setsRegister` can be the effect of are those whose rule writes operand_a's register. -/
theorem writesOperandA_of_setsRegister {v : Byte} (hpcw : opPcw i.opcode = false) (hreads : i.onlyReadsA = false)
    (hoperand : i.regOperands.head? = some v) : writesOperandA i = true := by
  rw [opPcw_opcode] at hpcw
  cases i with
  | add | sub | mult | div | mod | inc | dec | and | not | or | xor | shl | shr | ldi | ld | pop => rfl
  | cmp | prn | push => nomatch hreads
  | hlt | ret => nomatch hoperand
  | call | jmp | jeq | jne | jgt | jlt | jle | jge => nomatch hpcw

theorem effect_reg {j : RegIx} (h : Effect s i t) (hne : t.reg j ≠ s.reg j) :
    (writesOperandA i = true ∧ i.regOperands.head? = some (BitVec.ofNat 8 j)) ∨
      (j = spIx ∧ (i = .ret ∨ ∃ ra, i = .push ra ∨ i = .pop ra ∨ i = .call ra)) := by
  cases h with
  | setsRegister a v hpcw hreads hoperand =>
    obtain rfl : j = a := not_imp_comm.1 (reg_setReg_other s v) hne
    exact .inl ⟨writesOperandA_of_setsRegister hpcw hreads hoperand, hoperand⟩
  | pops ra a ha =>
    by_cases hsp : j = spIx
    · exact .inr ⟨hsp, .inr ⟨ra, .inr (.inl rfl)⟩⟩
    · obtain rfl : j = a := not_imp_comm.1 (popped_reg_other hsp) hne
      have hname : BitVec.ofNat 8 j = ra := by rw [← ha]; exact ofNat_toNat_ix ra (ha.trans_lt j.isLt)
      exact .inl ⟨rfl, congrArg some hname.symm⟩
  | pushes ra => exact .inr ⟨not_imp_comm.1 (decSP_reg_other s) hne, .inr ⟨ra, .inl rfl⟩⟩
  | calls ra => exact .inr ⟨not_imp_comm.1 (decSP_reg_other s) hne, .inr ⟨ra, .inr (.inr rfl)⟩⟩
  | returns => exact .inr ⟨not_imp_comm.1 (incSP_reg_other _) hne, .inl rfl⟩
  | faults | setsFlags | halts | emits | jumps => exact absurd rfl hne

end Sys2Proof.Machine

namespace Sys2Proof.Claims

open Sys2Proof.Machine

/-- Settles O23: the fault was entered by this step, and three of the reasons for a step's fault are of this kind. -/
theorem outOfBoundsComesFromFetchOperandOrStore : Obligations.OutOfBoundsComesFromFetchOperandOrStore := by
  intro s t _ hstep hk
  obtain ⟨r, hraise, rfl⟩ := stepRaises_of_step hstep (by rw [hk]; nofun)
  cases hraise with
  | fetch hhigh => exact .inl ⟨hhigh, rfl⟩
  | undefinedOpcode u => cases u <;> nomatch hk
  | instruction hpc hd hr =>
    rcases raises_outOfBounds hr hk with ⟨v, hv, hbad, hinfo⟩ | ⟨ra, rfl | rfl, hsp, hinfo⟩
    · exact .inr (.inl ⟨hpc, _, v, hd, hv, hbad, hinfo⟩)
    · exact .inr (.inr ⟨hpc, ra, .inl hd, hsp, hinfo⟩)
    · exact .inr (.inr ⟨hpc, ra, .inr hd, hsp, hinfo⟩)

/-- Settles O25: a StackUnderflow that the state before did not hold was raised, for the one reason of that kind;
conversely `exec_underflow` is the one next state. -/
theorem stackUnderflowComesFromPopAndRetAlone : Obligations.StackUnderflowComesFromPopAndRetAlone := by
  intro i s t hs hexec
  have horigin (ht : t.fault.kind = .stackUnderflow) :
      256 ≤ s.SP ∧ (i = .ret ∨ ∃ ra : Byte, ra.toNat < 8 ∧ i = .pop ra) ∧ t.fault.info = s.SP := by
    rcases effect_fault_cases (exec_effect hexec) with ⟨r, hr, rfl⟩ | hkeep
    · exact raises_stackUnderflow hr ht
    · rw [hkeep, hs] at ht
      nomatch ht
  refine ⟨⟨fun ht => ?origin, fun ⟨hsp, hi⟩ => ?raised⟩, fun ht => (horigin ht).2.2⟩
  case origin =>
    obtain ⟨hsp, hi, -⟩ := horigin ht
    exact ⟨hsp, hi⟩
  case raised =>
    rw [exec_underflow hsp hi] at hexec
    cases hexec
    rfl

/-- Settles O26: a step that enters no fault records none of these kinds, and at `W = 8` no reason for one is. -/
theorem noStackFaultAtEightBits : Obligations.NoStackFaultAtEightBits := by
  intro s t hr hW hstep
  obtain ⟨⟨-, hnone⟩, ⟨r, hraise, rfl⟩ | ⟨_, -, -, -, hkeep⟩⟩ := step_effect hstep
  · exact stepRaises_at_eight_bits hraise hr hW
  · rw [hkeep, hnone]
    exact ⟨nofun, nofun, nofun⟩

/-- Settles O27: the fault entry keeps the flags, and so does every effect of another instruction. -/
theorem onlyCmpWritesTheFlags : Obligations.OnlyCmpWritesTheFlags := by
  intro s t hstep hne
  obtain ⟨-, ⟨r, -, rfl⟩ | ⟨i, -, hd, heffect, -⟩⟩ := step_effect hstep
  · exact absurd (enterFault_fl s r) hne
  · obtain ⟨ra, rb, rfl⟩ := (effect_fl heffect).resolve_left hne
    exact ⟨ra, rb, hd⟩

/-- Settles O29, by the cases of `Effect`. -/
theorem outputGrowsOnlyByPrn : Obligations.OutputGrowsOnlyByPrn :=
  fun _ _ _ _ hexec => effect_output (exec_effect hexec)

/-- Settles O30: the fault entry keeps memory, and a store changes the byte at the decremented SP alone. -/
theorem onlyPushAndCallWriteOneByte : Obligations.OnlyPushAndCallWriteOneByte := by
  intro s t _ hm hstep addr hne
  obtain ⟨-, ⟨r, -, rfl⟩ | ⟨i, -, hd, heffect, -⟩⟩ := step_effect hstep
  · exact absurd rfl hne
  · rcases effect_mem heffect with hkeep | ⟨ra, v, hi, hsp, hmem⟩
    · exact absurd (by rw [hkeep]) hne
    · have haddr : addr = pushAddress s := by
        by_contra hother
        rw [hmem, pushed_read hm, byteAfterStore_other hother] at hne
        exact hne rfl
      refine ⟨⟨ra, ?_⟩, haddr, haddr ▸ hsp⟩
      rcases hi with rfl | rfl
      · exact .inl hd
      · exact .inr hd

/-- Settles O31, by the cases of `Effect`. -/
theorem onlyNamedRegistersAndTheStackPointerChange : Obligations.OnlyNamedRegistersAndTheStackPointerChange :=
  fun _ _ _ _ hexec hne => effect_reg (exec_effect hexec) hne

end Sys2Proof.Claims
end
